-- ==== Sys2Proof/Word.lean ====
section
/-! DEFINITION. The widths of the machine's values (spec/00_scope.md rules R6 and R7) and the fetch
window (R84). Every value is unsigned; bit 0 is the least significant bit. -/

namespace Sys2Proof

/-- One general register, one ALU result, one byte of either memory: `XLEN` = 8 bits (R6, R11). -/
abbrev Byte := BitVec 8

/-- One instruction word: `ILEN` = 16 bits (R6, R51). -/
abbrev Word := BitVec 16

/-- The program counter: `PC_WIDTH` = 16 bits, a byte offset into program memory (R6, R14). -/
abbrev Pc := BitVec 16

/-- The fetch window: the four bytes at offsets pc, pc + 1, pc + 2, pc + 3, in ascending address
order (R69, R84). -/
structure Window where
  b0 : Byte
  b1 : Byte
  b2 : Byte
  b3 : Byte
  deriving DecidableEq, Repr

end Sys2Proof
end

