-- ==== Sys2Proof/Config.lean ====
section
/-! DEFINITION. The sizes that are fixed when the machine is constructed (spec/00_scope.md rule R6,
spec/10_state.md rule R24). The rules are written for any NREGS and DMEM_SIZE, and so is the model:
a State carries its own sizes, and the two values here are those of `State.reset` only. -/

namespace Sys2Proof

/-- `NREGS` of the machine after reset: the reference value 32 (R6; decision D1 of
spec/92_eei_decisions.md; log entry 1). -/
def Config.nregs : Nat := 32

/-- `PMEM_SIZE`: the capacity of program memory in bytes (R6, R20). -/
def Config.pmemSize : Nat := 32768

/-- `DMEM_SIZE` of the machine after reset: OPEN in the spec, any natural number (R6; decision D2).
It has no body, so every claim about the reset state holds for every size (log entry 2). -/
opaque Config.dmemSize : Nat

end Sys2Proof
end

