-- ==== Sys2Proof/Syntax.lean ====
section
/-! DEFINITION. The Instruction: the closed set of five variants of spec/30_encoding.md rule R50, one
constructor per row of spec/opcode_table.json, in the table's order. Register-index operands are
unbounded natural numbers, so that none can wrap before it is checked (R50, log entry 5). -/

namespace Sys2Proof

/-- A decoded, or directly constructed, Instruction (R50). -/
inductive Instr where
  /-- `NOP`, variant NoOp (R130). -/
  | noOp
  /-- `INC`, variant Increment(reg) (R100). -/
  | increment (reg : Nat)
  /-- `DEC`, variant Decrement(reg) (R101). -/
  | decrement (reg : Nat)
  /-- `ADD`, variant Add(dest, src), destination first (R110). -/
  | add (dest src : Nat)
  /-- `LDI`, variant LoadImmediate(d, k): `d` is a window offset, not a register number; no word
  decodes to it (R62, R120). -/
  | loadImmediate (d : Nat) (k : Byte)
  deriving DecidableEq, Repr

end Sys2Proof
end

