-- ==== Sys2Proof/Machine/State.lean ====
section
/-! DEFINITION. The architectural state (spec/10_state.md rule R10), the error kinds
(spec/60_exceptions.md rule R140) and the state after construction, which is this hardware's reset
(R25, spec/70_reset_and_hazards.md rule R170). -/

namespace Sys2Proof.Machine

/-- The seven status flags, seven separate booleans with no packed form (R16, R18). -/
structure Flags where
  carry : Bool
  zero : Bool
  negative : Bool
  overflow : Bool
  sign : Bool
  halfCarry : Bool
  twosComplementOverflow : Bool
  deriving DecidableEq, Repr

/-- A byte memory as its listed (address, byte) cells, in the canonical form `Memory.wf`
(Machine/Ops.lean) states. -/
abbrev Memory := List Host.Cell

/-- The whole architectural state: the five items of R10, and the size of the data memory's array,
which the construction fixes (R24). -/
structure State where
  /-- The register file; its length is `NREGS` (R11, R24). -/
  x : List Byte
  /-- The status flags (R16). -/
  flags : Flags
  /-- Program memory, 32768 bytes (R20). -/
  pmem : Memory
  /-- Data memory, `dmemSize` bytes, touched by no operation (R21). -/
  dmem : Memory
  /-- `DMEM_SIZE`, fixed at construction (R24). -/
  dmemSize : Nat
  /-- The program counter, a byte offset into program memory (R14). -/
  pc : Pc
  deriving DecidableEq, Repr

/-- `NREGS`: the number of registers of this machine; valid indices are 0 to `nregs - 1` (R11). -/
def State.nregs (s : State) : Nat := s.x.length

/-- The four error kinds, the complete set (R140; item U12 of spec/93_implementation_defined.md). -/
inductive ErrorKind where
  | fetchOutOfBounds
  | decodeFailure
  | registerOutOfRange
  | programTooLarge
  deriving DecidableEq, Repr

/-- An error response: its kind, which is the whole normative content, and the informational value
R144 lets it carry. A failed operation changes no state (R146). -/
inductive Fault where
  /-- Raised by phase (a) of `step` when the 4-byte window does not fit in program memory; carries
  the pc (R142). Safe: the spec's own error, and where the source's two wordings differ (conflict C1)
  the spec takes the one that stops earlier. -/
  | fetchOutOfBounds (pc : Pc)
  /-- Raised by phase (b) of `step` when the word matches no decoder entry; carries the word (R141).
  Safe: the spec's own error for every unmatched word. -/
  | decodeFailure (word : Word)
  /-- Raised by phase (c) of `step`, by `execute` and by `read_reg` for an index that is not below
  NREGS, and for a LoadImmediate whose target lies outside the upper window; carries the first
  offending index (R143). Safe: the spec's own error. -/
  | registerOutOfRange (index : Nat)
  /-- Raised by `load` for a program longer than program memory; carries the length (R148). Safe:
  the spec's own error. -/
  | programTooLarge (len : Nat)
  deriving DecidableEq, Repr

/-- Why an instruction has no meaning. No arm of `exec` answers with it: all five are modelled. -/
inductive Refusal where
  /-- An instruction whose meaning is not written; raised by an arm of `exec` only. Safe: a run
  stops there. -/
  | notModelled (mnemonic : String)
  deriving DecidableEq, Repr

/-- What `step`, `execute` and `load` answer: the new state, or an error kind. -/
abbrev Result := Host.Outcome State Fault Refusal

/-- All seven flags false: their value after construction (R25; decision D4; log entry 4). -/
def Flags.reset : Flags := ⟨false, false, false, false, false, false, false⟩

/-- `construct(NREGS, DMEM_SIZE)`: the pc is 0, which the source states; every register 0, every flag
false, every byte of both memories 0, which the spec decides (R25, R80, R170; log entries 3 and 4).
A memory with nothing listed reads as 0 everywhere. -/
def State.construct (nregs dmemSize : Nat) : State where
  x := List.replicate nregs 0#8
  flags := Flags.reset
  pmem := []
  dmem := []
  dmemSize := dmemSize
  pc := 0#16

/-- The machine right after reset: construction with the sizes of Config (R25, R170, R171). -/
def State.reset : State := State.construct Config.nregs Config.dmemSize

end Sys2Proof.Machine
end

