-- ==== Sys2Proof/Machine/Flags.lean ====
section
/-! DEFINITION. The flag computation of the ALU: the spec gives none. No instruction writes a flag
and no instruction reads one (spec/10_state.md rule R17). -/

namespace Sys2Proof.Machine

/-- The flags after an ALU operation: as they were. No carry, zero, sign or overflow indication is
stored anywhere (R17, R93). -/
def Flags.afterAlu (f : Flags) : Flags := f

end Sys2Proof.Machine
end

