-- ==== Sys2Proof/Machine/Ops.lean ====
section
/-! DEFINITION. The named operations over the memories and the register file (the primitives of
spec/00_scope.md rule R8), raising an error (spec/60_exceptions.md rule R145), and the inspection
of the memories (spec/40_fetch_execute.md rule R97). -/

namespace Sys2Proof.Machine

/-! ### Memory -/

/-- What an address that is not listed reads as: 0, the contents after construction and after the
zero-clear of `load` (R25, R81; log entry 3). -/
def Memory.unlisted : Byte := 0#8

/-- The byte at an address. Which addresses exist is the caller's check (R84). -/
def Memory.read (m : Memory) (a : Nat) : Byte :=
  match m with
  | [] => Memory.unlisted
  | (a', b) :: rest => if a = a' then b else Memory.read rest a

/-- Write one byte, keeping the canonical form: addresses rising, and no cell that equals what an
unlisted address reads as. -/
def Memory.write (m : Memory) (a : Nat) (b : Byte) : Memory :=
  match m with
  | [] => if b = Memory.unlisted then [] else [(a, b)]
  | (a', b') :: rest =>
    if a < a' then
      if b = Memory.unlisted then (a', b') :: rest else (a, b) :: (a', b') :: rest
    else if a = a' then
      if b = Memory.unlisted then rest else (a, b) :: rest
    else (a', b') :: Memory.write rest a b

/-- Every byte 0: the clearing loop of `load` (R81). -/
def Memory.clear : Memory := []

/-- `MemWrite`: consecutive bytes from an address upward (R8). The addresses are distinct, so the
order of the writes is not visible; the highest is written first. -/
def Memory.writeBytes (m : Memory) (a : Nat) (bytes : List Byte) : Memory :=
  match bytes with
  | [] => m
  | b :: bs => (Memory.writeBytes m (a + 1) bs).write a b

/-- `MemRead(a, 4)`: the four bytes at `a` to `a + 3`, in ascending address order (R8, R84). -/
def Memory.readWindow (m : Memory) (a : Nat) : Window :=
  ⟨m.read a, m.read (a + 1), m.read (a + 2), m.read (a + 3)⟩

/-- Every listed address is at least `lo` and below `size`, the addresses rise strictly, and no cell
equals what an unlisted address reads as. -/
def Memory.wfFrom (size lo : Nat) (m : Memory) : Bool :=
  match m with
  | [] => true
  | (a, b) :: rest =>
    decide (lo ≤ a) && decide (a < size) && decide (b ≠ Memory.unlisted) &&
      Memory.wfFrom size (a + 1) rest

/-- The canonical form of a memory of `size` bytes. -/
def Memory.wf (size : Nat) (m : Memory) : Bool := Memory.wfFrom size 0 m

/-- Model-level reading of program memory by an observer: offsets 0 to 32767 exist (R97, R20). -/
def State.inspectPmem (s : State) (a : Nat) : Option Byte :=
  if a < Config.pmemSize then some (s.pmem.read a) else none

/-- Model-level reading of data memory by an observer: offsets 0 to DMEM_SIZE - 1 exist (R97, R21). -/
def State.inspectDmem (s : State) (a : Nat) : Option Byte :=
  if a < s.dmemSize then some (s.dmem.read a) else none

/-! ### The register file -/

/-- `x[i]` in a right-hand side, for an index already checked (R8); the default is never seen then. -/
def State.reg (s : State) (i : Nat) : Byte := s.x.getD i 0#8

/-- `x[i] <- v`, for an index already checked (R8). -/
def State.setReg (s : State) (i : Nat) (v : Byte) : State := { s with x := s.x.set i v }

/-! ### Errors -/

/-- Raising an error: the operation ends and its response is the error. Control goes nowhere inside
the core, nothing is saved, and the caller keeps the state it had (R145, R146, R147): on this
hardware this is all there is to taking an exception, and nothing returns from one. -/
def raise (f : Fault) : Result := .fault f

/-- The kind of an error: two errors of the same kind are the same error (R144). -/
def Fault.kind : Fault → ErrorKind
  | .fetchOutOfBounds _ => .fetchOutOfBounds
  | .decodeFailure _ => .decodeFailure
  | .registerOutOfRange _ => .registerOutOfRange
  | .programTooLarge _ => .programTooLarge

/-- The code of an error on the response port (table of R140; decision D15). Success has code 0. -/
def ErrorKind.code : ErrorKind → Nat
  | .fetchOutOfBounds => 1
  | .decodeFailure => 2
  | .registerOutOfRange => 3
  | .programTooLarge => 4

/-! ### The host's write port into program memory -/

/-- `load(program)`: the length is checked first; then program memory is cleared and the program
copied to offset 0. Nothing but program memory changes: not the pc, not the registers (R81, R82). -/
def load (program : List Byte) (s : State) : Result :=
  if program.length > Config.pmemSize then raise (.programTooLarge program.length)
  else .next { s with pmem := Memory.clear.writeBytes 0 program }

end Sys2Proof.Machine
end

