-- ==== Sys2Proof/Machine/Operands.lean ====
section
/-! DEFINITION. The operand forms: an explicit register index and a window-mapped one, each checked
before use (spec/40_fetch_execute.md rule R87; spec/43_load_immediate.md rules R120 and R121). The
immediate form needs no operation: `k` is stored whole. -/

namespace Sys2Proof.Machine

/-- `LDI_BASE`: the base added to LoadImmediate's window offset (R6, R120). -/
def ldiBase : Nat := 16

/-- The greatest window offset LoadImmediate accepts: the window is the targets 16 to 31 (R6, R121,
R122; decision D12; log entry 6). -/
def ldiMaxOffset : Nat := 15

/-- The register a window offset names, in unbounded arithmetic so that it cannot wrap (R120). -/
def windowTarget (d : Nat) : Nat := d + ldiBase

/-- An explicit register operand: go on only if the index is below NREGS, else the error names the
index (R8, R87, R143). -/
def requireReg (i : Nat) (s : State) (k : Result) : Result :=
  if i < s.nregs then k else raise (.registerOutOfRange i)

/-- A window-mapped register operand: the offset must lie in the window and the target in the
register file; the error names the computed target (R120, R121, R144). -/
def requireWindow (d : Nat) (s : State) (k : Result) : Result :=
  if d > ldiMaxOffset then raise (.registerOutOfRange (windowTarget d))
  else requireReg (windowTarget d) s k

end Sys2Proof.Machine
end

