-- ==== Sys2Proof/Machine/Alu.lean ====
section
/-! DEFINITION. The ALU operations of spec/40_fetch_execute.md rule R93, all modulo 256, and the one
write-back every result goes through. -/

namespace Sys2Proof.Machine

/-- `INC`: a + 1 mod 256 (R93, R100, R103). -/
def aluInc (a : Byte) : Byte := a + 1#8

/-- `DEC`: a + 255 mod 256, which is a - 1 mod 256 (R93, R101, R103). -/
def aluDec (a : Byte) : Byte := a + 255#8

/-- `ADD`: a + b mod 256; the ninth bit is discarded (R93, R110, R113). -/
def aluAdd (a b : Byte) : Byte := a + b

/-- `PASS-IMMEDIATE`: the result is the literal (R93, R120). -/
def aluPass (k : Byte) : Byte := k

/-- Write a result to a checked register; the flags stay as they were (R17, R86). -/
def writeBack (r : Nat) (v : Byte) (s : State) : State :=
  { s.setReg r v with flags := s.flags.afterAlu }

end Sys2Proof.Machine
end

