-- ==== Sys2Proof/Machine/LoadImmediate.lean ====
section
/-! DEFINITION. LoadImmediate (spec/43_load_immediate.md), which has no encoding and is reached only
by executing a directly constructed Instruction. -/

namespace Sys2Proof.Machine

/-- `LoadImmediate(d, k)`: `x[d + 16] <- k`, if the target lies in the upper window and in the
register file (R120, R121). -/
def execLoadImmediate (d : Nat) (k : Byte) (s : State) : Result :=
  requireWindow d s (.next (writeBack (windowTarget d) (aluPass k) s))

end Sys2Proof.Machine
end

