-- ==== Sys2Proof/Machine/NoOp.lean ====
section
/-! DEFINITION. NoOp (spec/44_noop.md). -/

namespace Sys2Proof.Machine

/-- `NoOp`: no state change and no error (R130). -/
def execNoOp (s : State) : Result := .next s

end Sys2Proof.Machine
end

