-- ==== Sys2Proof/Machine/SingleRegister.lean ====
section
/-! DEFINITION. The single-register family (spec/41_single_register.md): Increment and Decrement. -/

namespace Sys2Proof.Machine

/-- Check the one register operand, then replace its value (R86, R100, R101). -/
def updateReg (f : Byte → Byte) (r : Nat) (s : State) : Result :=
  requireReg r s (.next (writeBack r (f (s.reg r)) s))

/-- `Increment(r)`: `x[r] <- (x[r] + 1) mod 256` (R100). -/
def execIncrement (r : Nat) (s : State) : Result := updateReg aluInc r s

/-- `Decrement(r)`: `x[r] <- (x[r] + 255) mod 256` (R101). -/
def execDecrement (r : Nat) (s : State) : Result := updateReg aluDec r s

end Sys2Proof.Machine
end

