-- ==== Sys2Proof/Machine/TwoRegister.lean ====
section
/-! DEFINITION. The two-register family (spec/42_two_register.md): Add. -/

namespace Sys2Proof.Machine

/-- `Add(d, r)`: both indices are checked, `d` first; both registers are read; then
`x[d] <- (x[d] + x[r]) mod 256` (R110, R111). -/
def execAdd (d r : Nat) (s : State) : Result :=
  requireReg d s (requireReg r s (.next (writeBack d (aluAdd (s.reg d) (s.reg r)) s)))

end Sys2Proof.Machine
end

