-- ==== Sys2Proof/Machine/Dispatch.lean ====
section
/-! DEFINITION. The ALU dispatch (spec/40_fetch_execute.md rule R86), which is the whole of the
operation `execute` (R94): the execute phase alone, with no fetch, no decode and no pc advance. -/

namespace Sys2Proof.Machine

/-- The execute phase: one arm per variant (R86, R94). -/
def exec (i : Instr) (s : State) : Host.Outcome State Fault Refusal :=
  match i with
  | .noOp => Sys2Proof.Machine.execNoOp s
  | .increment reg => Sys2Proof.Machine.execIncrement reg s
  | .decrement reg => Sys2Proof.Machine.execDecrement reg s
  | .add dest src => Sys2Proof.Machine.execAdd dest src s
  | .loadImmediate d k => Sys2Proof.Machine.execLoadImmediate d k s

end Sys2Proof.Machine
end

