-- ==== Sys2Proof/WellFormed.lean ====
section
/-! DEFINITION. Which Instructions have an instruction word (spec/30_encoding.md rule R64). An
Instruction that is not well formed in this sense can still be executed, by direct construction
(spec/40_fetch_execute.md rule R94): this check is about the instruction stream only. -/

namespace Sys2Proof

/-- The Instruction has an encoding: register field at most 31 for the single-register family; for
Add a destination at most 63, a source at most 31, and the shared bit 4 equal in both
(`dest[0] = src[4]`, R58, R59, R64); never for LoadImmediate (R62). -/
def Instr.wellFormed : Instr → Bool
  | .noOp => true
  | .increment r => decide (r ≤ 31)
  | .decrement r => decide (r ≤ 31)
  | .add d s => decide (d ≤ 63) && decide (s ≤ 31) && decide (d % 2 = s / 16)
  | .loadImmediate _ _ => false

end Sys2Proof
end

