-- ==== Sys2Proof/Decode.lean ====
section
/-! DEFINITION. The Instruction Decoder of spec/30_encoding.md: the ordered list of (mask,
expected bits, constructor) entries of R53, the decoder over a fetch window (R69), and the encoder
of R64. The decoder reads no state and no configuration. -/

namespace Sys2Proof

/-! ### The instruction word and its fields -/

/-- The 16-bit word of a window: its first two bytes, low byte first (R51). -/
def Window.word (b : Window) : Word :=
  b.b0.setWidth 16 ||| (b.b1.setWidth 16 <<< 8)

/-- `reg` of the single-register family: `(w & 0x01F0) >> 4`, bits 8 to 4 (R55). -/
def regField (w : Word) : Nat := ((w &&& 0x01F0#16) >>> 4).toNat

/-- `dest` of the two-register family: `(w & 0x03F0) >> 4`, bits 9 to 4 (R58). -/
def destField (w : Word) : Nat := ((w &&& 0x03F0#16) >>> 4).toNat

/-- `src` of the two-register family: `w & 0x001F`, bits 4 to 0; bit 4 is shared with `dest` (R58). -/
def srcField (w : Word) : Nat := (w &&& 0x001F#16).toNat

/-! ### The decoder -/

/-- One entry of the decoder's ordered list (R53). -/
structure DecoderEntry where
  mask : Word
  expected : Word
  build : Word → Instr

/-- The entry's test: the masked word equals the expected bits. -/
def DecoderEntry.hits (e : DecoderEntry) (w : Word) : Bool :=
  w &&& e.mask == e.expected

/-- Entry 1, the zero pattern (R54). -/
def zeroEntry : DecoderEntry := ⟨0xFFFF#16, 0x0000#16, fun _ => .noOp⟩

/-- Entry 2, Increment (R56). -/
def incrementEntry : DecoderEntry := ⟨0xFE0F#16, 0x9403#16, fun w => .increment (regField w)⟩

/-- Entry 3, Decrement (R57). -/
def decrementEntry : DecoderEntry := ⟨0xFE0F#16, 0x940A#16, fun w => .decrement (regField w)⟩

/-- Entry 4, Add (R59). -/
def addEntry : DecoderEntry := ⟨0xFC00#16, 0x0C00#16, fun w => .add (destField w) (srcField w)⟩

/-- The four entries in the order the contract fixes (R53, R61). -/
def decoderEntries : List DecoderEntry := [zeroEntry, incrementEntry, decrementEntry, addEntry]

/-- The first entry that matches builds the Instruction; if none does, decoding fails (R53, R60). -/
def firstMatch : List DecoderEntry → Word → Option Instr
  | [], _ => none
  | e :: es, w => if e.hits w then some (e.build w) else firstMatch es w

/-- Decoding of one instruction word (R53). -/
def decodeWord (w : Word) : Option Instr := firstMatch decoderEntries w

/-- The decoder's contract: from a window, `some` Instruction or decode failure; bytes 2 and 3 are
ignored (R69, R52). -/
def decode (b : Window) : Option Instr := decodeWord b.word

/-! ### The encoder -/

/-- The word of an Instruction, or a refusal where no word exists (R64, R62). -/
def encode : Instr → Option Word
  | .noOp => some 0x0000#16
  | .increment r => if r ≤ 31 then some (0x9403#16 ||| (BitVec.ofNat 16 r <<< 4)) else none
  | .decrement r => if r ≤ 31 then some (0x940A#16 ||| (BitVec.ofNat 16 r <<< 4)) else none
  | .add d s =>
    if d ≤ 63 ∧ s ≤ 31 ∧ d % 2 = s / 16 then
      some (0x0C00#16 ||| (BitVec.ofNat 16 d <<< 4) ||| BitVec.ofNat 16 s)
    else none
  | .loadImmediate _ _ => none

/-- A word as it is stored: low byte first (R51, R64). -/
def wordBytes (w : Word) : List Byte := [w.setWidth 8, (w >>> 8).setWidth 8]

/-- The bytes of an encodable Instruction in ascending address order (R64). -/
def encodeBytes (i : Instr) : Option (List Byte) := (encode i).map wordBytes

/-! ### The host's numbering of an instruction's bits -/

/-- Byte `j` of a number, little-endian. -/
def byteOfNat (v j : Nat) : Byte := BitVec.ofNat 8 (v / 256 ^ j)

/-- The window that holds an instruction given by its low `nbits` bits, every bit above them zero. -/
def tableWindow (nbits w : Nat) : Window :=
  let v := w % 2 ^ nbits
  ⟨byteOfNat v 0, byteOfNat v 1, byteOfNat v 2, byteOfNat v 3⟩

/-- The Instruction the decoder reads from bits numbered as spec/opcode_table.json numbers them. -/
def decodeTableWord (nbits w : Nat) : Option Instr := decode (tableWindow nbits w)

end Sys2Proof
end

