-- ==== Sys2Proof/Machine/Fetch.lean ====
section
/-! DEFINITION. The phases of `step` other than execute (spec/40_fetch_execute.md rules R83 to R88):
fetch, decode, advance; and the placing of one instruction where fetch reads. -/

namespace Sys2Proof.Machine

/-- `FETCH_WINDOW`: the number of bytes fetch reads (R6, R84). -/
def fetchWindow : Nat := 4

/-- Phase (a), fetch: the four bytes at the pc, if all four lie in program memory; the sum is taken
in unbounded arithmetic, and there is no alignment check (R84, R34; log entries 7 and 10). -/
def fetch (s : State) : Except Fault Window :=
  if s.pc.toNat + fetchWindow > Config.pmemSize then .error (.fetchOutOfBounds s.pc)
  else .ok (s.pmem.readWindow s.pc.toNat)

/-- Phase (b), decode: the Instruction of the window, or an error that carries the word (R85). -/
def decodePhase (b : Window) : Except Fault Instr :=
  match decode b with
  | some i => .ok i
  | none => .error (.decodeFailure b.word)

/-- Phase (d), advance: `pc <- (pc + 2) mod 65536`, whatever the instruction (R88). -/
def advance (s : State) : State := { s with pc := s.pc + 2#16 }

/-- Phases (c) and (d) together: the pc advances only after a successful execute (R83, R88). -/
def advanceAfter (r : Result) : Result :=
  match r with
  | .next t => .next (advance t)
  | .fault f => .fault f
  | .refused q => .refused q

/-- Store an instruction's first two bytes, low byte first, at the pc, where the next fetch reads
them; where the pc lies beyond the last fetchable offset there is no such place, and nothing is
stored (R31, R84). -/
def placeAtPc (b : Window) (s : State) : State :=
  if s.pc.toNat + fetchWindow > Config.pmemSize then s
  else { s with pmem := (s.pmem.write (s.pc.toNat + 1) b.b1).write s.pc.toNat b.b0 }

end Sys2Proof.Machine
end

