-- ==== Sys2Proof/Machine/Step.lean ====
section
/-! DEFINITION. `step()`: fetch, decode, execute, advance, as one atomic transition
(spec/40_fetch_execute.md rule R83, spec/70_reset_and_hazards.md rule R181). -/

namespace Sys2Proof.Machine

/-- `step()`: a failure in a phase ends the step with that phase's error, and no later phase runs
(R83). -/
def step (s : State) : Host.Outcome State Fault Refusal :=
  match fetch s with
  | .error f => raise f
  | .ok b =>
    match decodePhase b with
    | .error f => raise f
    | .ok i => advanceAfter (exec i s)

/-- `s` with the instruction of the low `nbits` bits of `w` stored where `step` fetches next. It
stands for a `load` by the host (log entry 11). -/
def State.withFetchWord (s : State) (nbits w : Nat) : State := placeAtPc (tableWindow nbits w) s

end Sys2Proof.Machine
end

