-- ==== Sys2Proof/Machine/Port.lean ====
section
/-! DEFINITION. The operations through which a caller affects or observes the core, as request and
response pairs (spec/40_fetch_execute.md rule R80), and successive direct executions (R94). -/

namespace Sys2Proof.Machine

/-- `read_reg(i)`: `x[i]`, or RegisterOutOfRange for an index that is not below NREGS (R96). -/
def State.readReg (s : State) (i : Nat) : Except Fault Byte :=
  if i < s.nregs then .ok (s.reg i) else .error (.registerOutOfRange i)

/-- `read_pc()`: the pc; it cannot fail (R96). -/
def State.readPc (s : State) : Pc := s.pc

/-- The six operations, and no others (R80). -/
inductive Request where
  | construct (nregs dmemSize : Nat)
  | load (program : List Byte)
  | step
  | execute (i : Instr)
  | readReg (i : Nat)
  | readPc
  deriving DecidableEq, Repr

/-- What a request is answered with: success, with the value read for an accessor, or one error. -/
inductive Response where
  | done
  | byte (v : Byte)
  | pc (v : Pc)
  | error (f : Fault)
  /-- An instruction without a meaning; no request is answered so, all five being modelled. -/
  | refused (q : Refusal)
  deriving DecidableEq, Repr

/-- The state an operation leaves and its response: a failed operation leaves the state it found
(R146). -/
def settle (s : State) (r : Result) : State × Response :=
  match r with
  | .next t => (t, .done)
  | .fault f => (s, .error f)
  | .refused q => (s, .refused q)

/-- One request, handled to completion (R80). `construct` yields a new machine (R170). -/
def serve (q : Request) (s : State) : State × Response :=
  match q with
  | .construct n d => (State.construct n d, .done)
  | .load p => settle s (load p s)
  | .step => settle s (step s)
  | .execute i => settle s (exec i s)
  | .readReg i =>
    match s.readReg i with
    | .ok v => (s, .byte v)
    | .error f => (s, .error f)
  | .readPc => (s, .pc s.readPc)

/-- The response is an error. -/
def Response.isError : Response → Bool
  | .error _ => true
  | .done => false
  | .byte _ => false
  | .pc _ => false
  | .refused _ => false

/-- The response's code on the port: 0 for success, else the error kind's (table of R140). A refused
instruction, which never occurs, has none. -/
def Response.code : Response → Option Nat
  | .done => some 0
  | .byte _ => some 0
  | .pc _ => some 0
  | .error f => some f.kind.code
  | .refused _ => none

/-- Requests one after the other (R42): the state after the last, and every response in order. -/
def serveAll : List Request → State → State × List Response
  | [], s => (s, [])
  | q :: qs, s =>
    let r := serve q s
    let rest := serveAll qs r.1
    (rest.1, r.2 :: rest.2)

/-- A run of n steps: n successive `step` requests, ending at the first error (R91). -/
def runSteps : Nat → State → Result
  | 0, s => .next s
  | n + 1, s =>
    match step s with
    | .next t => runSteps n t
    | .fault f => .fault f
    | .refused q => .refused q

/-- Successive `execute` operations, ending at the first error (R94). -/
def execAll : List Instr → State → Result
  | [], s => .next s
  | i :: is, s =>
    match exec i s with
    | .next t => execAll is t
    | .fault f => .fault f
    | .refused q => .refused q

end Sys2Proof.Machine
end

