-- ==== Sys2Proof/Machine/Controller.lean ====
section
/-! DEFINITION. The fetch-execute state machine of spec/40_fetch_execute.md rule R89: one resting
state and four transient ones. `step` (Machine/Step.lean) is the same transition taken at once. -/

namespace Sys2Proof.Machine

/-- The controller's state. The window and the Instruction exist only inside one `step` (R23). -/
inductive Phase where
  | idle
  | fetch
  | decode (b : Window)
  | execute (i : Instr)
  | advance
  deriving DecidableEq, Repr

/-- The controller, the state it works on, and the response to the latest `step` request once that
request is complete. -/
structure Controller where
  phase : Phase
  state : State
  response : Option Response
  deriving DecidableEq, Repr

/-- A `step` request takes IDLE to FETCH; no request is accepted while one is in progress (R89). -/
def Controller.requestStep (c : Controller) : Controller :=
  match c.phase with
  | .idle => { c with phase := .fetch, response := none }
  | .fetch => c
  | .decode _ => c
  | .execute _ => c
  | .advance => c

/-- Back to IDLE with a response, having written nothing (R89). -/
def Controller.abandon (c : Controller) (r : Response) : Controller :=
  { c with phase := .idle, response := some r }

/-- One transition of the controller (R89). -/
def Controller.tick (c : Controller) : Controller :=
  match c.phase with
  | .idle => c
  | .fetch =>
    match Machine.fetch c.state with
    | .ok b => { c with phase := .decode b }
    | .error f => c.abandon (.error f)
  | .decode b =>
    match decodePhase b with
    | .ok i => { c with phase := .execute i }
    | .error f => c.abandon (.error f)
  | .execute i =>
    match exec i c.state with
    | .next t => { c with phase := .advance, state := t }
    | .fault f => c.abandon (.error f)
    | .refused q => c.abandon (.refused q)
  | .advance => { phase := .idle, state := Machine.advance c.state, response := some .done }

/-- Successive transitions. -/
def Controller.ticks : Nat → Controller → Controller
  | 0, c => c
  | n + 1, c => Controller.ticks n c.tick

end Sys2Proof.Machine
end

