-- ==== Sys2Proof/Safety.lean ====
section
/-! DEFINITION. The terms the claims use: what an operation leaves unchanged, the invariant of the
machine, a state change carried through a result, and the sticky error mark that
spec/60_exceptions.md rule R147 advises as bookkeeping outside the architectural state. -/

namespace Sys2Proof.Machine

/-- `t` agrees with `s` in the status flags, the register count, every byte of both memories and the
size of the data memory. The registers' values and the pc are left open. -/
def SameElsewhere (s t : State) : Prop :=
  t.nregs = s.nregs ∧ t.flags = s.flags ∧ t.dmemSize = s.dmemSize ∧
    (∀ a, t.pmem.read a = s.pmem.read a) ∧ (∀ a, t.dmem.read a = s.dmem.read a)

/-- `t` is `s` but for the value of register `r`: every other register, the pc, the flags and every
byte of both memories are unchanged. -/
def SameButRegister (r : Nat) (s t : State) : Prop :=
  SameElsewhere s t ∧ t.pc = s.pc ∧ ∀ j, j ≠ r → t.x[j]? = s.x[j]?

/-- The register an Instruction writes when it succeeds, if it writes one (spec/10_state.md rule R13). -/
def destination : Instr → Option Nat
  | .noOp => none
  | .increment r => some r
  | .decrement r => some r
  | .add d _ => some d
  | .loadImmediate d _ => some (d + 16)

/-- An index of the Instruction is out of range: the cases of spec/60_exceptions.md rule R143. -/
def OutOfRange (i : Instr) (s : State) : Prop :=
  match i with
  | .noOp => False
  | .increment r => s.nregs ≤ r
  | .decrement r => s.nregs ≤ r
  | .add d r => s.nregs ≤ d ∨ s.nregs ≤ r
  | .loadImmediate d _ => 15 < d ∨ s.nregs ≤ d + 16

/-- The next `step` fetches and decodes the Instruction `i`: the whole window lies in program memory,
and its bytes decode to `i` (spec/40_fetch_execute.md rules R84 and R85). -/
def State.Fetches (s : State) (i : Instr) : Prop :=
  s.pc.toNat + 4 ≤ 32768 ∧
    decode ⟨s.pmem.read s.pc.toNat, s.pmem.read (s.pc.toNat + 1), s.pmem.read (s.pc.toNat + 2),
      s.pmem.read (s.pc.toNat + 3)⟩ = some i

/-- The request is not the construction of a new machine. -/
def Request.onMachine (q : Request) : Prop := ∀ n d, q ≠ .construct n d

/-- The invariant of the machine: both memories are in canonical form, within their sizes, and the pc
is even and at most 32766 (spec/10_state.md rule R15). -/
def State.Inv (s : State) : Prop :=
  Memory.wf Config.pmemSize s.pmem = true ∧ Memory.wf s.dmemSize s.dmem = true ∧
    s.pc.toNat % 2 = 0 ∧ s.pc.toNat ≤ 32766

/-- A result with its next state, if it is one, changed by `g`. -/
def mapNext (g : State → State) (r : Result) : Result :=
  match r with
  | .next t => .next (g t)
  | .fault f => .fault f
  | .refused q => .refused q

/-- A machine with the model's sticky error mark (R147; decision D24). -/
structure Session where
  machine : State
  errorReported : Bool
  deriving DecidableEq, Repr

/-- Serve requests in order; the mark is set by the first error response and never cleared. -/
def Session.serveAll : List Request → Session → Session
  | [], c => c
  | q :: qs, c =>
    let r := serve q c.machine
    Session.serveAll qs ⟨r.1, c.errorReported || r.2.isError⟩

end Sys2Proof.Machine
end

