-- ==== Sys2Proof/Certificates/Slice0/Obligations.lean ====
section
/-! DEFINITION. The statements for the provers, from the numbered rules of spec/. Each docstring names
the rule it formalises, or the decision of spec/92_eei_decisions.md and the log entry where the
statement rests on a choice and not on the source. Every statement holds for every NREGS and every
DMEM_SIZE, both being carried by the state. -/

open Sys2Proof Sys2Proof.Machine

/-! ### Reset and sizes -/

/-- The reset values (table of R25). The pc's value is the source's; every other value is the spec's
own decision D3, D4 or D5 (log entries 3 and 4), the register count of `State.reset` is decision D1
(log entry 1), and its data memory size is open (log entry 2). -/
def Obligations.ResetValues : Prop :=
  (∀ n d : Nat,
    (State.construct n d).pc = 0#16 ∧ (State.construct n d).nregs = n ∧
      (∀ i, i < n → (State.construct n d).x[i]? = some 0#8) ∧
      (State.construct n d).flags = ⟨false, false, false, false, false, false, false⟩ ∧
      (∀ a, (State.construct n d).pmem.read a = 0#8) ∧
      (∀ a, (State.construct n d).dmem.read a = 0#8) ∧ (State.construct n d).dmemSize = d) ∧
    State.reset = State.construct 32 Config.dmemSize

/-- R171: the entry point after reset is program-memory offset 0: the first fetch after construction,
with or without a load, reads the window at offset 0. What stands there is not said here. -/
def Obligations.EntryPointIsOffsetZero : Prop :=
  State.reset.pc = 0#16 ∧
    ∀ (n d : Nat) (p : List Byte) (t : State), load p (State.construct n d) = .next t →
      fetch (State.construct n d) = .ok ⟨(State.construct n d).pmem.read 0,
          (State.construct n d).pmem.read 1, (State.construct n d).pmem.read 2,
          (State.construct n d).pmem.read 3⟩ ∧
        fetch t = .ok ⟨t.pmem.read 0, t.pmem.read 1, t.pmem.read 2, t.pmem.read 3⟩

/-- R24: NREGS and DMEM_SIZE are what construction was given, and no operation changes them. -/
def Obligations.SizesAreFixedAtConstruction : Prop :=
  (∀ (n d : Nat) (s : State), (serve (.construct n d) s).1.nregs = n ∧
    (serve (.construct n d) s).1.dmemSize = d) ∧
    ∀ (q : Request) (s : State), q.onMachine →
      (serve q s).1.nregs = s.nregs ∧ (serve q s).1.dmemSize = s.dmemSize

/-! ### Fetch and decode -/

/-- The phases of a step (R83 to R88): fetch fails exactly when the 4-byte window does not fit
(decision D6, log entry 7), decode fails when no entry matches, and otherwise the step is the
execute phase of the Instruction fetched, after which, and only after its success, the pc grows by 2
(decision D7, log entry 8). No alignment is asked for (decision D21, log entry 10); that the errors
carry the pc and the word is decision D14 (log entry 17). -/
def Obligations.StepRunsTheDecodedInstruction : Prop :=
  ∀ s : State,
    (32768 < s.pc.toNat + 4 → step s = .fault (.fetchOutOfBounds s.pc)) ∧
      (s.pc.toNat + 4 ≤ 32768 →
        decode ⟨s.pmem.read s.pc.toNat, s.pmem.read (s.pc.toNat + 1), s.pmem.read (s.pc.toNat + 2),
            s.pmem.read (s.pc.toNat + 3)⟩ = none →
          step s = .fault (.decodeFailure
            ((s.pmem.read s.pc.toNat).setWidth 16 |||
              ((s.pmem.read (s.pc.toNat + 1)).setWidth 16 <<< 8)))) ∧
      ∀ i : Instr, s.Fetches i →
        step s = mapNext (fun t => { t with pc := t.pc + 2#16 }) (exec i s)

/-- R31: fetch is little-endian, and the program image given to `load` is in the same order; the
source's example bytes 03 94 are the word 0x9403. -/
def Obligations.FetchIsLittleEndian : Prop :=
  (∀ (s : State) (b : Window), fetch s = .ok b →
    b.word.extractLsb' 0 8 = s.pmem.read s.pc.toNat ∧
      b.word.extractLsb' 8 8 = s.pmem.read (s.pc.toNat + 1)) ∧
    (∀ (p : List Byte) (s t : State) (b : Window) (lo hi : Byte), load p s = .next t →
      fetch t = .ok b → p[t.pc.toNat]? = some lo → p[t.pc.toNat + 1]? = some hi →
        b.word.toNat = lo.toNat + 256 * hi.toNat) ∧
    ∀ (s t : State) (b : Window), load [0x03#8, 0x94#8] s = .next t → t.pc = 0#16 →
      fetch t = .ok b → b.word = 0x9403#16

/-- R53: the decoder tries the entries in order and returns on the first match; its pseudocode, and
the ordered list of (mask, expected bits) it is built from. -/
def Obligations.DecoderFollowsItsPseudocode : Prop :=
  (decoderEntries.map fun e => (e.mask, e.expected)) =
      [(0xFFFF#16, 0x0000#16), (0xFE0F#16, 0x9403#16), (0xFE0F#16, 0x940A#16),
        (0xFC00#16, 0x0C00#16)] ∧
    ∀ w : Word, decodeWord w =
      if w = 0x0000#16 then some .noOp
      else if w &&& 0xFE0F#16 = 0x9403#16 then
        some (.increment ((w &&& 0x01F0#16) >>> 4).toNat)
      else if w &&& 0xFE0F#16 = 0x940A#16 then
        some (.decrement ((w &&& 0x01F0#16) >>> 4).toNat)
      else if w &&& 0xFC00#16 = 0x0C00#16 then
        some (.add ((w &&& 0x03F0#16) >>> 4).toNat (w &&& 0x001F#16).toNat)
      else none

/-- The decode phase (R85) hands the word, low byte first, to the decoder, yields its Instruction, and
fails with the word where there is none; the step then surfaces the error. That the step leaves the
whole state, the pc included, is decision D7 (log entry 8), and that the error carries the word is
decision D14 (log entry 17). -/
def Obligations.DecodePhaseSurfacesFailure : Prop :=
  (∀ (b : Window) (i : Instr), decodeWord (b.b0.setWidth 16 ||| (b.b1.setWidth 16 <<< 8)) = some i →
    decodePhase b = .ok i) ∧
    (∀ b : Window, decodeWord (b.b0.setWidth 16 ||| (b.b1.setWidth 16 <<< 8)) = none →
      decodePhase b =
        .error (.decodeFailure (b.b0.setWidth 16 ||| (b.b1.setWidth 16 <<< 8)))) ∧
    ∀ (s : State) (b : Window), fetch s = .ok b →
      decodeWord (b.b0.setWidth 16 ||| (b.b1.setWidth 16 <<< 8)) = none →
        serve .step s =
          (s, .error (.decodeFailure (b.b0.setWidth 16 ||| (b.b1.setWidth 16 <<< 8))))

/-- A few words written out from the formats Z, R1 and R2, and the source's illegal word. -/
def Obligations.SampleWordsDecode : Prop :=
  decodeWord 0b0000000000000000#16 = some .noOp ∧
    decodeWord 0b1001010000100011#16 = some (.increment 2) ∧
    decodeWord 0b1001010111111010#16 = some (.decrement 31) ∧
    decodeWord 0b0000110100010011#16 = some (.add 17 19) ∧
    decodeWord 0b0000110000010000#16 = some (.add 1 16) ∧
    decodeWord 0b1111111111111111#16 = none

/-- R56: a word decodes to Increment of its bits 8 to 4 exactly when it passes the masked test; these
are the 32 words 0x9403 with r in that field, for r in 0 to 31. -/
def Obligations.IncrementWords : Prop :=
  ∀ (w : Word) (r : Nat),
    (decodeWord w = some (.increment r) ↔
      w &&& 0xFE0F#16 = 0x9403#16 ∧ r = (w.extractLsb' 4 5).toNat) ∧
    (decodeWord w = some (.increment r) ↔
      r ≤ 31 ∧ w = 0x9403#16 ||| (BitVec.ofNat 16 r <<< 4))

/-- The words of Decrement, as R57 gives them; the order of the entries, decision D29, is not used. -/
def Obligations.DecrementWords : Prop :=
  ∀ (w : Word) (r : Nat),
    (decodeWord w = some (.decrement r) ↔
      w &&& 0xFE0F#16 = 0x940A#16 ∧ r = (w.extractLsb' 4 5).toNat) ∧
    (decodeWord w = some (.decrement r) ↔
      r ≤ 31 ∧ w = 0x940A#16 ||| (BitVec.ofNat 16 r <<< 4))

/-- The words of Add (R58, R59): destination bits 9 to 4, source bits 4 to 0, bit 4 in both, so that
exactly the pairs with dest[0] = src[4] have a word (which R59 marks as derived). -/
def Obligations.AddWords : Prop :=
  ∀ (w : Word) (d r : Nat),
    (decodeWord w = some (.add d r) ↔
      w &&& 0xFC00#16 = 0x0C00#16 ∧ d = (w.extractLsb' 4 6).toNat ∧
        r = (w.extractLsb' 0 5).toNat) ∧
    (decodeWord w = some (.add d r) ↔
      d ≤ 63 ∧ r ≤ 31 ∧ d % 2 = r / 16 ∧
        w = 0x0C00#16 ||| (BitVec.ofNat 16 d <<< 4) ||| BitVec.ofNat 16 r)

/-- The zero pattern is the only word of NoOp, and the words that decode to nothing are those of no
entry (R54, R60, R65, R141). -/
def Obligations.NoOpWordAndUnmatchedWords : Prop :=
  ∀ w : Word,
    (decodeWord w = some .noOp ↔ w = 0x0000#16) ∧
    (decodeWord w = none ↔
      w ≠ 0x0000#16 ∧ (∀ r : Nat, r ≤ 31 → w ≠ 0x9403#16 ||| (BitVec.ofNat 16 r <<< 4)) ∧
        (∀ r : Nat, r ≤ 31 → w ≠ 0x940A#16 ||| (BitVec.ofNat 16 r <<< 4)) ∧
        ¬(0x0C00 ≤ w.toNat ∧ w.toNat ≤ 0x0FFF))

/-- LoadImmediate is execute-only: no window decodes to it, it has no encoding, and no step executes
one (R62, R123). The spec chose this over inventing an encoding: decision D11 (log entry 12). -/
def Obligations.LoadImmediateIsNeverFetched : Prop :=
  ∀ (d : Nat) (k : Byte),
    (∀ b : Window, decode b ≠ some (.loadImmediate d k)) ∧ encode (.loadImmediate d k) = none ∧
      ∀ s : State, ¬s.Fetches (.loadImmediate d k)

/-- The four entries are pairwise disjoint, so any order of them gives the same decoder (R61, marked
there as derived). -/
def Obligations.EntryOrderIsImmaterial : Prop :=
  ∀ es : List DecoderEntry, es.Perm decoderEntries → ∀ w : Word, firstMatch es w = decodeWord w

/-- R64: an Instruction has a word exactly when it is well formed, and that word, stored low byte
first in any window, decodes to it, with every operand at every value. -/
def Obligations.DecodeOfEncodeIsIdentity : Prop :=
  ∀ i : Instr,
    (i.wellFormed = true → ∃ w, encode i = some w ∧
      ∀ b2 b3 : Byte, decode ⟨w.extractLsb' 0 8, w.extractLsb' 8 8, b2, b3⟩ = some i) ∧
    (i.wellFormed = false → encode i = none ∧ ∀ b : Window, decode b ≠ some i)

/-- R64, the other direction: what the decoder reads is well formed, and encodes to the bytes read. -/
def Obligations.EncodeOfDecodeIsIdentity : Prop :=
  ∀ (b : Window) (i : Instr), decode b = some i →
    i.wellFormed = true ∧ encodeBytes i = some [b.b0, b.b1]

/-- Bytes 2 and 3 of the window matter to no result (R52; decision D10, log entry 9): two program
memories that differ only there make the same step. -/
def Obligations.UpperWindowBytesAreInert : Prop :=
  ∀ (s : State) (m : Memory),
    (∀ a, a ≠ s.pc.toNat + 2 → a ≠ s.pc.toNat + 3 → m.read a = s.pmem.read a) →
      step { s with pmem := m } = mapNext (fun t => { t with pmem := m }) (step s)

/-! ### The instructions -/

/-- Increment, as R100 gives it: its words; the wrapping sum, for every valid register; the frame; the
error with no state change; and the same inside a step, where the pc grows by 2 exactly on success.
That a failed step leaves the whole state, the pc included, is decision D7 (log entry 8); that exec
leaves the pc is decision D32 (log entry 13); the index the error carries is decision D14 (log entry
17). -/
def Obligations.IncrementAddsOneModulo256 : Prop :=
  (∀ w : Word, w &&& 0xFE0F#16 = 0x9403#16 →
    decodeWord w = some (.increment (w.extractLsb' 4 5).toNat)) ∧
  (∀ r : Nat, r ≤ 31 → decodeWord (0x9403#16 ||| (BitVec.ofNat 16 r <<< 4)) = some (.increment r)) ∧
  (∀ (w : Word) (r : Nat), decodeWord w = some (.increment r) → r ≤ 31) ∧
  (∀ (s : State) (r : Nat), r < s.nregs → ∃ v t, s.x[r]? = some v ∧
    exec (.increment r) s = .next t ∧
    t.x[r]? = some (BitVec.ofNat 8 ((v.toNat + 1) % 256)) ∧ SameButRegister r s t ∧
    (s.Fetches (.increment r) → step s = .next { t with pc := s.pc + 2#16 })) ∧
  ∀ (s : State) (r : Nat), s.nregs ≤ r →
    exec (.increment r) s = .fault (.registerOutOfRange r) ∧
    serve (.execute (.increment r)) s = (s, .error (.registerOutOfRange r)) ∧
    (s.Fetches (.increment r) → serve .step s = (s, .error (.registerOutOfRange r)))

/-- Decrement, as R101 gives it: its words; 255 added modulo 256, for every valid register; the frame;
the error with no state change; and the same inside a step. That a failed step leaves the whole
state, the pc included, is decision D7 (log entry 8); that exec leaves the pc is decision D32 (log
entry 13); the index the error carries is decision D14 (log entry 17). -/
def Obligations.DecrementSubtractsOneModulo256 : Prop :=
  (∀ w : Word, w &&& 0xFE0F#16 = 0x940A#16 →
    decodeWord w = some (.decrement (w.extractLsb' 4 5).toNat)) ∧
  (∀ r : Nat, r ≤ 31 → decodeWord (0x940A#16 ||| (BitVec.ofNat 16 r <<< 4)) = some (.decrement r)) ∧
  (∀ (s : State) (r : Nat), r < s.nregs → ∃ v t, s.x[r]? = some v ∧
    exec (.decrement r) s = .next t ∧
    t.x[r]? = some (BitVec.ofNat 8 ((v.toNat + 255) % 256)) ∧ SameButRegister r s t ∧
    (s.Fetches (.decrement r) → step s = .next { t with pc := s.pc + 2#16 })) ∧
  ∀ (s : State) (r : Nat), s.nregs ≤ r →
    exec (.decrement r) s = .fault (.registerOutOfRange r) ∧
    serve (.execute (.decrement r)) s = (s, .error (.registerOutOfRange r)) ∧
    (s.Fetches (.decrement r) → serve .step s = (s, .error (.registerOutOfRange r)))

/-- Add, as R110 gives it: its words; the wrapping sum of the two values read before the
write, which doubles where both are one register; the frame, the source kept unless it is the
destination; and the error where either index is out of range, which writes nothing. Which index the
error names is left to AddChecksDestinationFirst. That a failed step leaves the whole state, the pc
included, is decision D7 (log entry 8), and that exec leaves the pc is decision D32 (log entry 13). -/
def Obligations.AddSumsModulo256 : Prop :=
  (∀ w : Word, w &&& 0xFC00#16 = 0x0C00#16 →
    decodeWord w = some (.add (w.extractLsb' 4 6).toNat (w.extractLsb' 0 5).toNat)) ∧
  (∀ d r : Nat, d ≤ 63 → r ≤ 31 → d % 2 = r / 16 →
    decodeWord (0x0C00#16 ||| (BitVec.ofNat 16 d <<< 4) ||| BitVec.ofNat 16 r) =
      some (.add d r)) ∧
  (∀ (w : Word) (d r : Nat), decodeWord w = some (.add d r) → d ≤ 63 ∧ r ≤ 31 ∧ d % 2 = r / 16) ∧
  (∀ (s : State) (d r : Nat), d < s.nregs → r < s.nregs →
    ∃ a b t, s.x[d]? = some a ∧ s.x[r]? = some b ∧ exec (.add d r) s = .next t ∧
      t.x[d]? = some (BitVec.ofNat 8 ((a.toNat + b.toNat) % 256)) ∧ SameButRegister d s t ∧
      (d = r → t.x[d]? = some (BitVec.ofNat 8 (2 * a.toNat % 256))) ∧
      (s.Fetches (.add d r) → step s = .next { t with pc := s.pc + 2#16 })) ∧
  ∀ (s : State) (d r : Nat), s.nregs ≤ d ∨ s.nregs ≤ r →
    ∃ f, exec (.add d r) s = .fault f ∧ f.kind = .registerOutOfRange ∧
      serve (.execute (.add d r)) s = (s, .error f) ∧
      (s.Fetches (.add d r) → serve .step s = (s, .error f))

/-- The order of Add's two checks (R111; decision D16), seen in the index the error carries (decision
D14; both log entry 17), and with 32 registers which fetched Adds fail: those with bit 9 of the word
set. -/
def Obligations.AddChecksDestinationFirst : Prop :=
  (∀ (s : State) (d r : Nat), s.nregs ≤ d → exec (.add d r) s = .fault (.registerOutOfRange d)) ∧
  (∀ (s : State) (d r : Nat), d < s.nregs → s.nregs ≤ r →
    exec (.add d r) s = .fault (.registerOutOfRange r)) ∧
  ∀ (s : State) (w : Word) (d r : Nat), s.nregs = 32 → decodeWord w = some (.add d r) →
    ((∃ f, exec (.add d r) s = .fault f) ↔ w.getLsbD 9 = true)

/-- R120 with the validity condition of R121: the literal goes to register d + 16, for d up to 15 and
a target in the file; else the error names the target and nothing is written. The extent of the
window, d = 15 included, is the spec's decision D12 (log entry 6); that exec leaves the pc is decision
D32 (log entry 13); that a failed execute leaves the whole state is decision D7 (log entry 8); that
the error carries the target is decision D14 (log entry 17). -/
def Obligations.LoadImmediateWritesTheWindow : Prop :=
  (∀ (s : State) (d : Nat) (k : Byte), d ≤ 15 → d + 16 < s.nregs →
    ∃ t, exec (.loadImmediate d k) s = .next t ∧ t.x[d + 16]? = some k ∧
      SameButRegister (d + 16) s t) ∧
  ∀ (s : State) (d : Nat) (k : Byte), 15 < d ∨ s.nregs ≤ d + 16 →
    exec (.loadImmediate d k) s = .fault (.registerOutOfRange (d + 16)) ∧
      serve (.execute (.loadImmediate d k)) s = (s, .error (.registerOutOfRange (d + 16)))

/-- NoOp (R130): executed directly it changes nothing, the pc included (decision D32, log entry 13);
stepped, it moves the pc alone, whatever bytes 2 and 3 of the window hold. -/
def Obligations.NoOpOnlyAdvances : Prop :=
  (∀ s : State, exec .noOp s = .next s ∧ serve (.execute .noOp) s = (s, .done)) ∧
  (∀ s : State, s.pc.toNat ≤ 32764 → s.pmem.read s.pc.toNat = 0#8 →
    s.pmem.read (s.pc.toNat + 1) = 0#8 → step s = .next { s with pc := s.pc + 2#16 })

/-- The laws of the pair (R102, its wraparound law read as conflict C7 reads it): 256 increments, or
256 decrements, of a valid register leave the whole state as it was, and each of the two undoes the
other. R102 gives the register back; the rest of the state is back by the frames of R100 and R101, and
the pc, these being direct executions, by decision D32 (log entry 13). -/
def Obligations.IncrementAndDecrementLaws : Prop :=
  ∀ (s : State) (r : Nat), r < s.nregs →
    execAll (List.replicate 256 (.increment r)) s = .next s ∧
      execAll (List.replicate 256 (.decrement r)) s = .next s ∧
      execAll [.increment r, .decrement r] s = .next s ∧
      execAll [.decrement r, .increment r] s = .next s

/-- R112: Add(d, s) then Add(s, d), for distinct valid registers; the two pairs the rule gives that
can be run through fetch, and the pair that cannot. -/
def Obligations.AddRegressionScenario : Prop :=
  (∀ (s : State) (d r : Nat) (a b : Byte), d ≠ r → s.x[d]? = some a → s.x[r]? = some b →
    ∃ t, execAll [.add d r, .add r d] s = .next t ∧
      t.x[d]? = some (BitVec.ofNat 8 ((a.toNat + b.toNat) % 256)) ∧
      t.x[r]? = some (BitVec.ofNat 8 ((a.toNat + 2 * b.toNat) % 256))) ∧
  encode (.add 0 2) = some 0x0C02#16 ∧ encode (.add 2 0) = some 0x0C20#16 ∧
  encode (.add 17 19) = some 0x0D13#16 ∧ encode (.add 19 17) = some 0x0D31#16 ∧
  encode (.add 1 0) = none ∧ ∀ b : Window, decode b ≠ some (.add 1 0)

/-- The cases of R143 and no others: when the execute phase fails, and that it otherwise answers a
next state; and when the register accessor fails. LoadImmediate's case is decision D12 (log entry
6), the accessor's decision D26. -/
def Obligations.RegisterOutOfRangeExactly : Prop :=
  (∀ (i : Instr) (s : State), OutOfRange i s →
    ∃ f, exec i s = .fault f ∧ f.kind = .registerOutOfRange) ∧
  (∀ (i : Instr) (s : State), ¬OutOfRange i s → ∃ t, exec i s = .next t) ∧
  ∀ (s : State) (i : Nat), (∃ f, s.readReg i = .error f) ↔ s.nregs ≤ i

/-! ### The step and runs of it -/

/-- What one successful step changes (R98): the pc, by exactly 2, and at most the destination of the
Instruction fetched, which is no LoadImmediate. -/
def Obligations.StepChangesOneRegisterAndPc : Prop :=
  ∀ s t : State, step s = .next t →
    t.pc.toNat = s.pc.toNat + 2 ∧ SameElsewhere s t ∧
      ∃ i, s.Fetches i ∧ (∀ d k, i ≠ .loadImmediate d k) ∧
        ∀ j, destination i ≠ some j → t.x[j]? = s.x[j]?

/-- The reset state meets the invariant, and so does every newly constructed machine (R15, R25). -/
def Obligations.ResetMeetsInvariant : Prop :=
  State.reset.Inv ∧ ∀ n d : Nat, (State.construct n d).Inv

/-- Every step keeps the invariant: canonical memories, and a pc that is even and at most 32766
(R15; the bound by decision D6, log entry 7). -/
def Obligations.StepKeepsInvariant : Prop :=
  ∀ s t : State, s.Inv → step s = .next t → t.Inv

/-- Every operation keeps the invariant, a load of any program among them (R15, R80, R81). The
bound on the pc rests on decision D6 (log entry 7); that load, execute and a failed operation leave the
pc on decisions D8, D32 and D7 (log entries 8 and 13). -/
def Obligations.EveryOperationKeepsInvariant : Prop :=
  ∀ (q : Request) (s : State), s.Inv → (serve q s).1.Inv

/-- The controller of R89 refines the atomic step: four transitions after a request it is back in
IDLE with the state and the response of `step`; it writes nothing before EXECUTE; and it takes no
request while one is in progress. The shape of the controller is decision D19 (log entry 14). -/
def Obligations.ControllerRefinesStep : Prop :=
  (∀ (s : State) (r : Option Response),
    Controller.ticks 4 (Controller.requestStep ⟨.idle, s, r⟩) =
      ⟨.idle, (serve .step s).1, some (serve .step s).2⟩) ∧
  (∀ (s : State) (r : Option Response) (n : Nat), n ≤ 2 →
    (Controller.ticks n (Controller.requestStep ⟨.idle, s, r⟩)).state = s) ∧
  ∀ c : Controller, c.phase ≠ .idle → c.requestStep = c

/-- A run of n successful steps moves the pc by 2 n and leaves flags, memories and sizes alone; so no
program loops (R91, R92, the bound by decision D6, log entry 7). -/
def Obligations.RunAdvancesPcByTwoEach : Prop :=
  ∀ (n : Nat) (s t : State), runSteps n s = .next t →
    t.pc.toNat = s.pc.toNat + 2 * n ∧ SameElsewhere s t ∧ (0 < n → t.pc.toNat ≤ 32766)

/-- Every run comes to its natural end, the first step that answers an error, after at most 16383
successful steps, and stays there (R91, R92; decisions D6, D7 and D17, log entries 7, 8 and 15). -/
def Obligations.EveryRunEndsInAnError : Prop :=
  ∀ s : State, ∃ n t f, n ≤ 16383 ∧ runSteps n s = .next t ∧ step t = .fault f ∧
    ∀ m, n < m → runSteps m s = .fault f

/-- Running into zero memory (R130, R91): where program memory is zero from the pc on, the machine
executes NoOp up to pc 32766, changing nothing but the pc, and then fetch fails (decision D6, log
entry 7) with an error that carries the pc (decision D14, log entry 17). -/
def Obligations.ZeroMemoryRunsToTheFetchBound : Prop :=
  ∀ (s : State) (k : Nat), s.pc.toNat + 2 * k = 32766 →
    (∀ a, s.pc.toNat ≤ a → a < 32766 → s.pmem.read a = 0#8) →
      runSteps k s = .next { s with pc := 32766#16 } ∧
        runSteps (k + 1) s = .fault (.fetchOutOfBounds 32766#16)

/-! ### The operations of the port -/

/-- R17: no operation on a machine writes a flag, and none reads one: with other flags it gives the
same response and the same state but for those flags. -/
def Obligations.FlagsAreNeverWrittenOrRead : Prop :=
  ∀ (q : Request) (s : State), q.onMachine → (serve q s).1.flags = s.flags ∧
    ∀ f : Flags, serve q { s with flags := f } = ({ (serve q s).1 with flags := f }, (serve q s).2)

/-- Data memory is touched by no operation on a machine and influences none (R21, R30, R47). -/
def Obligations.DataMemoryIsNeverTouched : Prop :=
  ∀ (q : Request) (s : State), q.onMachine → (serve q s).1.dmem = s.dmem ∧
    ∀ m : Memory, serve q { s with dmem := m } = ({ (serve q s).1 with dmem := m }, (serve q s).2)

/-- The pc has one writer after construction, the advance of a successful step, which cannot wrap
(R15, R88, R155). That `load` and `execute` leave it is decisions D8 and D32, that a failed step does
is decision D7 (log entries 8 and 13). -/
def Obligations.PcIsWrittenByStepAlone : Prop :=
  (∀ (q : Request) (s : State), q.onMachine → q ≠ .step → (serve q s).1.pc = s.pc) ∧
    ∀ s : State,
      ((serve .step s).2 = .done →
        (serve .step s).1.pc = s.pc + 2#16 ∧ (s.pc + 2#16).toNat = s.pc.toNat + 2) ∧
      ((serve .step s).2 ≠ .done → (serve .step s).1.pc = s.pc)

/-- R45: no operation but `load` and construction changes program memory; after a load no byte of an
earlier program is left; and every fetch of every later step reads the bytes that load left. -/
def Obligations.LoadThenFetchIsCoherent : Prop :=
  (∀ (q : Request) (s : State), q.onMachine → (∀ p, q ≠ .load p) →
    ∀ a, (serve q s).1.pmem.read a = s.pmem.read a) ∧
  (∀ (p : List Byte) (s t : State), load p s = .next t →
    (∀ a b, p[a]? = some b → t.pmem.read a = b) ∧ ∀ a, p.length ≤ a → t.pmem.read a = 0#8) ∧
  ∀ (p : List Byte) (s t u : State) (n : Nat), load p s = .next t →
    runSteps n t = .next u → u.pc.toNat + 4 ≤ 32768 →
      fetch u = .ok ⟨t.pmem.read u.pc.toNat, t.pmem.read (u.pc.toNat + 1),
        t.pmem.read (u.pc.toNat + 2), t.pmem.read (u.pc.toNat + 3)⟩

/-- `load` (R81, R82): a program that fits, of any length, is copied over a cleared program memory,
and nothing else changes; one that does not fit changes nothing. That the rest of the state is left
alone is decision D8, that the check comes first D9, that any length will do D27 (log entries 8 and
13); that the error carries the length is decision D14 (log entry 17). -/
def Obligations.LoadReplacesProgramMemoryAlone : Prop :=
  (∀ (p : List Byte) (s : State), p.length ≤ 32768 → ∃ m, load p s = .next { s with pmem := m } ∧
    Memory.wf 32768 m = true ∧ (∀ a b, p[a]? = some b → m.read a = b) ∧
    ∀ a, p.length ≤ a → m.read a = 0#8) ∧
  ∀ (p : List Byte) (s : State), 32768 < p.length →
    load p s = .fault (.programTooLarge p.length) ∧
      serve (.load p) s = (s, .error (.programTooLarge p.length))

/-- ProgramTooLarge (R148) is raised exactly for a program of more than 32768 bytes; it is the only
error of `load`, and `load` the only operation that gives it. That a failing load leaves the whole
state, program memory not yet cleared, is decision D9 (log entry 8), and that the error carries the
length is decision D14 (log entry 17). -/
def Obligations.ProgramTooLargeExactly : Prop :=
  (∀ (p : List Byte) (s : State), 32768 < p.length →
    serve (.load p) s = (s, .error (.programTooLarge p.length))) ∧
  (∀ (p : List Byte) (s : State), p.length ≤ 32768 → (serve (.load p) s).2 = .done) ∧
  ∀ (q : Request) (s : State) (f : Fault), (serve q s).2 = .error f →
    (f.kind = .programTooLarge ↔ ∃ p, q = .load p)

/-- A failed operation changes no state, so that repeating it repeats the error (R95, R146, R147).
That the pc is among what stays is decision D7, and that a failing load has cleared nothing is
decision D9 (both log entry 8). -/
def Obligations.FailedOperationChangesNothing : Prop :=
  ∀ (q : Request) (s : State) (f : Fault), (serve q s).2 = .error f →
    (serve q s).1 = s ∧ serve q (serve q s).1 = (s, .error f)

/-- Which operation can give which error (R140), that none is ever answered with a refusal, and that
the code of a response is 0 exactly where there is no error (the codes are decision D15). -/
def Obligations.ErrorsOfEachOperation : Prop :=
  (∀ (q : Request) (s : State) (f : Fault), (serve q s).2 = .error f →
    match q with
    | .construct _ _ => False
    | .load _ => f.kind = .programTooLarge
    | .step => f.kind = .fetchOutOfBounds ∨ f.kind = .decodeFailure ∨ f.kind = .registerOutOfRange
    | .execute _ => f.kind = .registerOutOfRange
    | .readReg _ => f.kind = .registerOutOfRange
    | .readPc => False) ∧
  (∀ (q : Request) (s : State) (r : Refusal), (serve q s).2 ≠ .refused r) ∧
  ∀ (q : Request) (s : State), (serve q s).2.code = some 0 ↔ ∀ f, (serve q s).2 ≠ .error f

/-- The read accessors (R96): a register of the file, or an error for an index beyond it (decision
D26, log entry 18; its index decision D14, log entry 17), and the pc; neither changes any state. -/
def Obligations.ReadAccessorsObserveOnly : Prop :=
  (∀ (s : State) (i : Nat) (v : Byte), s.x[i]? = some v → serve (.readReg i) s = (s, .byte v)) ∧
  (∀ (s : State) (i : Nat), s.nregs ≤ i →
    serve (.readReg i) s = (s, .error (.registerOutOfRange i))) ∧
  ∀ s : State, serve .readPc s = (s, .pc s.pc)

/-- The sticky mark that R147 advises as the model's own bookkeeping (decision D24, log entry 16) is
set exactly when some response was an error, and does not disturb the machine. -/
def Obligations.StickyMarkRecordsAnyError : Prop :=
  ∀ (qs : List Request) (s : State),
    Session.serveAll qs ⟨s, false⟩ =
      ⟨(serveAll qs s).1, (serveAll qs s).2.any Response.isError⟩
end

