-- ==== Sys2Proof/Laws/Decode.lean ====
section
/-! SUPPORT. The instruction word as its fields: what the masks of spec/30_encoding.md rules R55 and R58
select, and how a word is put together from a mask's two sides. -/

namespace Sys2Proof

/-- A word is its part under a mask joined with its part outside it. -/
theorem and_or_and_not (w m : Word) : (w &&& m) ||| (w &&& ~~~m) = w := by
  apply BitVec.eq_of_getLsbD_eq
  intro i hi
  simp only [BitVec.getLsbD_or, BitVec.getLsbD_and, BitVec.getLsbD_not, hi]
  cases m.getLsbD i <;> simp

/-- The word read from a window, as a number. -/
theorem word_toNat (b : Window) : b.word.toNat = b.b0.toNat + 256 * b.b1.toNat := by
  have h0 := b.b0.isLt
  have h1 := b.b1.isLt
  have e : b.word = b.b1.setWidth 16 <<< 8 + b.b0.setWidth 16 := by
    rw [Window.word, BitVec.or_comm, BitVec.add_eq_or_of_and_eq_zero]
    apply BitVec.eq_of_getLsbD_eq
    intro i hi
    simp only [BitVec.getLsbD_and, BitVec.getLsbD_shiftLeft, BitVec.getLsbD_setWidth]
    by_cases h8 : i < 8
    · simp [h8]
    · simp [BitVec.getLsbD_of_ge b.b0 i (by omega)]
  rw [e]
  simp [Nat.shiftLeft_eq]
  omega

theorem regField_eq (w : Word) : regField w = (w.extractLsb' 4 5).toNat := by
  have : (w &&& 0x01F0#16) >>> 4 = (w.extractLsb' 4 5).setWidth 16 := by
    apply BitVec.eq_of_getLsbD_eq
    intro i hi
    interval_cases i <;> simp
  rw [regField, this]
  exact BitVec.toNat_setWidth_of_le (by decide)

theorem destField_eq (w : Word) : destField w = (w.extractLsb' 4 6).toNat := by
  have : (w &&& 0x03F0#16) >>> 4 = (w.extractLsb' 4 6).setWidth 16 := by
    apply BitVec.eq_of_getLsbD_eq
    intro i hi
    interval_cases i <;> simp
  rw [destField, this]
  exact BitVec.toNat_setWidth_of_le (by decide)

theorem srcField_eq (w : Word) : srcField w = (w.extractLsb' 0 5).toNat := by
  have : w &&& 0x001F#16 = (w.extractLsb' 0 5).setWidth 16 := by
    apply BitVec.eq_of_getLsbD_eq
    intro i hi
    interval_cases i <;> simp
  rw [srcField, this]
  exact BitVec.toNat_setWidth_of_le (by decide)

theorem regField_le (w : Word) : regField w ≤ 31 := by
  rw [regField_eq]
  omega

theorem destField_le (w : Word) : destField w ≤ 63 := by
  rw [destField_eq]
  omega

theorem srcField_le (w : Word) : srcField w ≤ 31 := by
  rw [srcField_eq]
  omega

/-- A field moved back to its place is the word under the field's mask. -/
theorem regField_shiftLeft (w : Word) : BitVec.ofNat 16 (regField w) <<< 4 = w &&& 0x01F0#16 := by
  rw [regField, BitVec.ofNat_toNat, BitVec.setWidth_eq]
  apply BitVec.eq_of_getLsbD_eq
  intro i hi
  interval_cases i <;> simp

theorem destField_shiftLeft (w : Word) : BitVec.ofNat 16 (destField w) <<< 4 = w &&& 0x03F0#16 := by
  rw [destField, BitVec.ofNat_toNat, BitVec.setWidth_eq]
  apply BitVec.eq_of_getLsbD_eq
  intro i hi
  interval_cases i <;> simp

theorem srcField_ofNat (w : Word) : BitVec.ofNat 16 (srcField w) = w &&& 0x001F#16 := by
  rw [srcField, BitVec.ofNat_toNat, BitVec.setWidth_eq]

end Sys2Proof
end

