-- ==== Sys2Proof/Laws/State.lean ====
section
/-! SUPPORT. Each field after each update of State, so that no proof unfolds a record update. -/

namespace Sys2Proof.Machine

theorem length_x (s : State) : s.x.length = s.nregs := rfl

section setReg
variable (s : State) (r : Nat) (v : Byte)

@[simp] theorem setReg_x : (s.setReg r v).x = s.x.set r v := rfl
@[simp] theorem setReg_flags : (s.setReg r v).flags = s.flags := rfl
@[simp] theorem setReg_pmem : (s.setReg r v).pmem = s.pmem := rfl
@[simp] theorem setReg_dmem : (s.setReg r v).dmem = s.dmem := rfl
@[simp] theorem setReg_dmemSize : (s.setReg r v).dmemSize = s.dmemSize := rfl
@[simp] theorem setReg_pc : (s.setReg r v).pc = s.pc := rfl

@[simp] theorem setReg_nregs : (s.setReg r v).nregs = s.nregs := by
  simp [State.nregs, State.setReg]

/-- The write-back is the register write alone: the flags stay (R17). -/
theorem writeBack_eq : writeBack r v s = s.setReg r v := rfl

end setReg

section advance
variable (s : State)

@[simp] theorem advance_x : (advance s).x = s.x := rfl
@[simp] theorem advance_flags : (advance s).flags = s.flags := rfl
@[simp] theorem advance_pmem : (advance s).pmem = s.pmem := rfl
@[simp] theorem advance_dmem : (advance s).dmem = s.dmem := rfl
@[simp] theorem advance_dmemSize : (advance s).dmemSize = s.dmemSize := rfl
@[simp] theorem advance_pc : (advance s).pc = s.pc + 2#16 := rfl
@[simp] theorem advance_nregs : (advance s).nregs = s.nregs := rfl

end advance

section construct
variable (n d : Nat)

@[simp] theorem construct_x : (State.construct n d).x = List.replicate n 0#8 := rfl
@[simp] theorem construct_flags : (State.construct n d).flags = Flags.reset := rfl
@[simp] theorem construct_pmem : (State.construct n d).pmem = [] := rfl
@[simp] theorem construct_dmem : (State.construct n d).dmem = [] := rfl
@[simp] theorem construct_dmemSize : (State.construct n d).dmemSize = d := rfl
@[simp] theorem construct_pc : (State.construct n d).pc = 0#16 := rfl

@[simp] theorem construct_nregs : (State.construct n d).nregs = n := by
  simp [State.nregs, State.construct]

end construct

/-- A checked read is the register's value. -/
theorem getElem?_eq_reg {s : State} {r : Nat} (h : r < s.nregs) : s.x[r]? = some (s.reg r) := by
  have h' : r < s.x.length := h
  simp [State.reg, List.getElem?_eq_getElem h']

/-- A register that reads as some value is a register of the file, holding it. -/
theorem reg_of_getElem? {s : State} {r : Nat} {v : Byte} (h : s.x[r]? = some v) :
    r < s.nregs ∧ s.reg r = v := by
  obtain ⟨hr, rfl⟩ := List.getElem?_eq_some_iff.mp h
  exact ⟨hr, by simp [State.reg, h]⟩

/-- Reading the register just written, for a checked index. -/
theorem setReg_getElem?_self {s : State} {r : Nat} (v : Byte) (h : r < s.nregs) :
    (s.setReg r v).x[r]? = some v := by
  have h' : r < s.x.length := h
  simp [h']

/-- Every other register keeps its value. -/
theorem setReg_getElem?_other (s : State) {r j : Nat} (v : Byte) (h : j ≠ r) :
    (s.setReg r v).x[j]? = s.x[j]? := by
  simp [Ne.symm h]

theorem setReg_reg_self {s : State} {r : Nat} (v : Byte) (h : r < s.nregs) :
    (s.setReg r v).reg r = v := by
  have h' : r < s.x.length := h
  simp [State.reg, h']

theorem setReg_reg_other (s : State) {r j : Nat} (v : Byte) (h : j ≠ r) :
    (s.setReg r v).reg j = s.reg j := by
  simp [State.reg, Ne.symm h]

/-- The later of two writes to one register wins. -/
@[simp] theorem setReg_setReg (s : State) (r : Nat) (v w : Byte) :
    (s.setReg r v).setReg r w = s.setReg r w := by
  simp [State.setReg]

/-- Writing back the value a register holds changes nothing. -/
@[simp] theorem setReg_reg (s : State) (r : Nat) : s.setReg r (s.reg r) = s := by
  cases s with
  | mk x flags pmem dmem dmemSize pc =>
    simp only [State.setReg, State.reg, State.mk.injEq, and_true]
    apply List.ext_getElem?
    intro j
    rw [List.getElem?_set]
    split
    · subst_vars
      split
      · rename_i h
        simp [List.getElem?_eq_getElem h]
      · rename_i h
        simp [List.getElem?_eq_none (Nat.le_of_not_lt h)]
    · rfl

end Sys2Proof.Machine
end

