-- ==== Sys2Proof/Laws/Exec.lean ====
section
/-! SUPPORT. What the operand checks, each meaning and the whole execute phase can do, said once. -/

namespace Sys2Proof.Machine

theorem requireReg_of_lt {i : Nat} {s : State} (k : Result) (h : i < s.nregs) :
    requireReg i s k = k := if_pos h

theorem requireReg_of_ge {i : Nat} {s : State} (k : Result) (h : s.nregs ≤ i) :
    requireReg i s k = .fault (.registerOutOfRange i) := if_neg (Nat.not_lt.mpr h)

/-- The check of one index either goes on or names the index. -/
theorem requireReg_cases (i : Nat) (s : State) (k : Result) :
    (i < s.nregs ∧ requireReg i s k = k) ∨
      (s.nregs ≤ i ∧ requireReg i s k = .fault (.registerOutOfRange i)) := by
  rcases Nat.lt_or_ge i s.nregs with h | h
  · exact .inl ⟨h, requireReg_of_lt k h⟩
  · exact .inr ⟨h, requireReg_of_ge k h⟩

/-- The check of a window offset either goes on, with a target in the window and in the file, or
names the target. -/
theorem requireWindow_cases (d : Nat) (s : State) (k : Result) :
    (d ≤ 15 ∧ d + 16 < s.nregs ∧ requireWindow d s k = k) ∨
      ((15 < d ∨ s.nregs ≤ d + 16) ∧
        requireWindow d s k = .fault (.registerOutOfRange (d + 16))) := by
  rcases Nat.lt_or_ge 15 d with h | h
  · exact .inr ⟨.inl h, if_pos h⟩
  · have e : requireWindow d s k = requireReg (d + 16) s k := if_neg (Nat.not_lt.mpr h)
    rw [e]
    rcases requireReg_cases (d + 16) s k with ⟨h', e'⟩ | ⟨h', e'⟩
    · exact .inl ⟨h, h', e'⟩
    · exact .inr ⟨.inr h', e'⟩

theorem updateReg_cases (f : Byte → Byte) (r : Nat) (s : State) :
    (r < s.nregs ∧ updateReg f r s = .next (s.setReg r (f (s.reg r)))) ∨
      (s.nregs ≤ r ∧ updateReg f r s = .fault (.registerOutOfRange r)) :=
  requireReg_cases r s _

theorem execAdd_cases (d r : Nat) (s : State) :
    (d < s.nregs ∧ r < s.nregs ∧ execAdd d r s = .next (s.setReg d (s.reg d + s.reg r))) ∨
      (s.nregs ≤ d ∧ execAdd d r s = .fault (.registerOutOfRange d)) ∨
      (d < s.nregs ∧ s.nregs ≤ r ∧ execAdd d r s = .fault (.registerOutOfRange r)) := by
  rcases requireReg_cases d s
    (requireReg r s (.next (writeBack d (aluAdd (s.reg d) (s.reg r)) s))) with ⟨h, e⟩ | ⟨h, e⟩
  · rcases requireReg_cases r s (.next (writeBack d (aluAdd (s.reg d) (s.reg r)) s)) with
      ⟨h', e'⟩ | ⟨h', e'⟩
    · exact .inl ⟨h, h', e.trans e'⟩
    · exact .inr (.inr ⟨h, h', e.trans e'⟩)
  · exact .inr (.inl ⟨h, e⟩)

theorem execLoadImmediate_cases (d : Nat) (k : Byte) (s : State) :
    (d ≤ 15 ∧ d + 16 < s.nregs ∧ execLoadImmediate d k s = .next (s.setReg (d + 16) k)) ∨
      ((15 < d ∨ s.nregs ≤ d + 16) ∧
        execLoadImmediate d k s = .fault (.registerOutOfRange (d + 16))) :=
  requireWindow_cases d s _

/-- The execute phase leaves the state alone, or writes one register of the file, or names an index:
it does nothing else. -/
theorem exec_cases (i : Instr) (s : State) :
    exec i s = .next s ∨ (∃ r v, r < s.nregs ∧ exec i s = .next (s.setReg r v)) ∨
      ∃ n, exec i s = .fault (.registerOutOfRange n) := by
  cases i with
  | noOp => exact .inl rfl
  | increment r =>
    rcases updateReg_cases aluInc r s with ⟨h, e⟩ | ⟨-, e⟩
    · exact .inr (.inl ⟨r, _, h, e⟩)
    · exact .inr (.inr ⟨r, e⟩)
  | decrement r =>
    rcases updateReg_cases aluDec r s with ⟨h, e⟩ | ⟨-, e⟩
    · exact .inr (.inl ⟨r, _, h, e⟩)
    · exact .inr (.inr ⟨r, e⟩)
  | add d r =>
    rcases execAdd_cases d r s with ⟨h, -, e⟩ | ⟨-, e⟩ | ⟨-, -, e⟩
    · exact .inr (.inl ⟨d, _, h, e⟩)
    · exact .inr (.inr ⟨d, e⟩)
    · exact .inr (.inr ⟨r, e⟩)
  | loadImmediate d k =>
    rcases execLoadImmediate_cases d k s with ⟨-, h, e⟩ | ⟨-, e⟩
    · exact .inr (.inl ⟨d + 16, k, h, e⟩)
    · exact .inr (.inr ⟨d + 16, e⟩)

/-- The next states of the execute phase. -/
theorem exec_next {i : Instr} {s t : State} (h : exec i s = .next t) :
    t = s ∨ ∃ r v, r < s.nregs ∧ t = s.setReg r v := by
  rcases exec_cases i s with e | ⟨r, v, hr, e⟩ | ⟨n, e⟩
  · exact .inl (by simpa using h.symm.trans e)
  · exact .inr ⟨r, v, hr, by simpa using h.symm.trans e⟩
  · simp [e] at h

/-- The execute phase never refuses: every instruction has its meaning. -/
theorem exec_ne_refused (i : Instr) (s : State) (q : Refusal) : exec i s ≠ .refused q := by
  rcases exec_cases i s with e | ⟨r, v, -, e⟩ | ⟨n, e⟩ <;> simp [e]

end Sys2Proof.Machine
end

