-- ==== Sys2Proof/Laws/Memory.lean ====
section
/-! SUPPORT. The laws of the byte memories: a read after a write, and that every memory operation
keeps the canonical form. -/

namespace Sys2Proof.Machine

@[simp] theorem read_nil (a : Nat) : Memory.read [] a = 0#8 := rfl

theorem read_cons (c : Host.Cell) (m : Memory) (a : Nat) :
    Memory.read (c :: m) a = if a = c.1 then c.2 else Memory.read m a := rfl

/-- The canonical form, cell by cell. -/
theorem wfFrom_cons {size lo a : Nat} {b : Byte} {m : Memory} :
    Memory.wfFrom size lo ((a, b) :: m) = true ↔
      lo ≤ a ∧ a < size ∧ b ≠ 0#8 ∧ Memory.wfFrom size (a + 1) m = true := by
  simp only [Memory.wfFrom, Bool.and_eq_true, decide_eq_true_eq, and_assoc]
  exact Iff.rfl

theorem wfFrom_mono {size lo lo' : Nat} {m : Memory} (h : Memory.wfFrom size lo m = true)
    (hl : lo' ≤ lo) : Memory.wfFrom size lo' m = true := by
  cases m with
  | nil => rfl
  | cons c m =>
    obtain ⟨h1, h2, h3, h4⟩ := wfFrom_cons.mp h
    exact wfFrom_cons.mpr ⟨by omega, h2, h3, h4⟩

/-- Nothing is listed below the lowest address a canonical memory may list. -/
theorem read_of_lt_lo {size lo a : Nat} {m : Memory} (h : Memory.wfFrom size lo m = true)
    (ha : a < lo) : m.read a = 0#8 := by
  induction m generalizing lo with
  | nil => rfl
  | cons c m ih =>
    obtain ⟨h1, -, -, h4⟩ := wfFrom_cons.mp h
    rw [read_cons, if_neg (by omega)]
    exact ih h4 (by omega)

/-- A write leaves every other address alone, in any memory. -/
theorem read_write_other (m : Memory) {a a' : Nat} (b : Byte) (h : a' ≠ a) :
    (m.write a b).read a' = m.read a' := by
  induction m with
  | nil => simp only [Memory.write]; split <;> simp [read_cons, h]
  | cons c m ih =>
    obtain ⟨k, v⟩ := c
    simp only [Memory.write]
    split_ifs with h1 h2 h3 h4
    · rfl
    · simp [read_cons, h]
    · subst h3; simp [read_cons, h]
    · subst h3; simp [read_cons, h]
    · simp [read_cons, ih]

/-- A read after a write to the same address gives the byte written. -/
theorem read_write_same {size lo : Nat} {m : Memory} (h : Memory.wfFrom size lo m = true)
    (a : Nat) (b : Byte) : (m.write a b).read a = b := by
  induction m generalizing lo with
  | nil =>
    simp only [Memory.write]
    split
    · rename_i h0; rw [h0]; rfl
    · simp [read_cons]
  | cons c m ih =>
    obtain ⟨k, v⟩ := c
    obtain ⟨h1, h2, h3, h4⟩ := wfFrom_cons.mp h
    simp only [Memory.write]
    split_ifs with c1 c2 c3 c4
    · rw [read_cons, if_neg (by simp; omega), read_of_lt_lo h4 (by omega), c2]; rfl
    · simp [read_cons]
    · rw [read_of_lt_lo h4 (by omega), c4]; rfl
    · simp [read_cons]
    · rw [read_cons, if_neg (by simpa using c3)]
      exact ih h4

/-- A write inside the memory keeps the canonical form. -/
theorem wfFrom_write {size lo : Nat} {m : Memory} (h : Memory.wfFrom size lo m = true)
    {a : Nat} (b : Byte) (hl : lo ≤ a) (ha : a < size) :
    Memory.wfFrom size lo (m.write a b) = true := by
  induction m generalizing lo with
  | nil =>
    simp only [Memory.write]
    split
    · rfl
    · rename_i h0; exact wfFrom_cons.mpr ⟨hl, ha, h0, rfl⟩
  | cons c m ih =>
    obtain ⟨k, v⟩ := c
    obtain ⟨h1, h2, h3, h4⟩ := wfFrom_cons.mp h
    simp only [Memory.write]
    split_ifs with c1 c2 c3 c4
    · exact h
    · exact wfFrom_cons.mpr ⟨hl, ha, c2, wfFrom_cons.mpr ⟨by omega, h2, h3, h4⟩⟩
    · exact wfFrom_mono h4 (by omega)
    · exact wfFrom_cons.mpr ⟨hl, ha, c4, by subst c3; exact h4⟩
    · exact wfFrom_cons.mpr ⟨h1, h2, h3, ih h4 (by omega)⟩

theorem wf_write {size : Nat} {m : Memory} (h : m.wf size = true) {a : Nat} (b : Byte)
    (ha : a < size) : (m.write a b).wf size = true :=
  wfFrom_write h b (Nat.zero_le a) ha

@[simp] theorem wf_clear (size : Nat) : Memory.clear.wf size = true := rfl

@[simp] theorem wf_nil (size : Nat) : Memory.wf size [] = true := rfl

theorem wf_writeBytes {size : Nat} {m : Memory} (h : m.wf size = true) (bytes : List Byte)
    (a : Nat) (ha : a + bytes.length ≤ size) : (m.writeBytes a bytes).wf size = true := by
  induction bytes generalizing a with
  | nil => exact h
  | cons b bs ih =>
    simp only [List.length_cons] at ha
    exact wf_write (ih (a + 1) (by omega)) b (by omega)

/-- The memories of a newly constructed machine, and so of `State.reset`, are canonical. -/
theorem construct_memories_wf (n d : Nat) :
    (State.construct n d).pmem.wf Config.pmemSize = true ∧ (State.construct n d).dmem.wf d = true :=
  ⟨rfl, rfl⟩

/-- Placing an instruction at the pc keeps program memory canonical. -/
theorem wf_placeAtPc (b : Window) {s : State} (h : s.pmem.wf Config.pmemSize = true) :
    (placeAtPc b s).pmem.wf Config.pmemSize = true := by
  unfold placeAtPc
  split
  · exact h
  · rename_i hb
    simp only [fetchWindow, gt_iff_lt, Nat.not_lt] at hb
    exact wf_write (wf_write h b.b1 (by omega)) b.b0 (by omega)

/-- A block write leaves the addresses outside the block alone, in any memory. -/
theorem read_writeBytes_outside (m : Memory) (bytes : List Byte) (a : Nat) {a' : Nat}
    (h : a' < a ∨ a + bytes.length ≤ a') : (m.writeBytes a bytes).read a' = m.read a' := by
  induction bytes generalizing a with
  | nil => rfl
  | cons b bs ih =>
    simp only [List.length_cons] at h
    rw [Memory.writeBytes, read_write_other _ _ (by omega), ih (a + 1) (by omega)]

/-- A block write puts byte `j` of the block at the `j`th address. -/
theorem read_writeBytes_inside {size : Nat} {m : Memory} (h : m.wf size = true)
    (bytes : List Byte) (a j : Nat) (ha : a + bytes.length ≤ size) (hj : j < bytes.length) :
    (m.writeBytes a bytes).read (a + j) = bytes[j] := by
  induction bytes generalizing a j with
  | nil => simp at hj
  | cons b bs ih =>
    simp only [List.length_cons] at ha hj
    cases j with
    | zero =>
      exact read_write_same (wf_writeBytes h bs (a + 1) (by omega)) a b
    | succ j =>
      rw [Memory.writeBytes, read_write_other _ _ (by omega)]
      have := ih (a + 1) j (by omega) (by omega)
      rw [show a + (j + 1) = a + 1 + j by omega, this]
      rfl

end Sys2Proof.Machine
end

