-- ==== Sys2Proof/Laws/PerInstr.lean ====
section
/-! SUPPORT. One fact about every Instruction as syntax: the encoder gives a word exactly where the
Instruction is well formed, and refuses everywhere else (spec/30_encoding.md rule R64). -/

namespace Sys2Proof.Laws.EncodableIffWellFormed

/-- The Instruction has a word exactly when it is well formed. -/
def Statement (i : Instr) : Prop := (encode i).isSome = i.wellFormed

theorem noOp : Statement .noOp := rfl

theorem increment (reg : Nat) : Statement (.increment reg) := by
  simp only [Statement, encode, Instr.wellFormed]
  split <;> simp_all

theorem decrement (reg : Nat) : Statement (.decrement reg) := by
  simp only [Statement, encode, Instr.wellFormed]
  split <;> simp_all

theorem add (dest src : Nat) : Statement (.add dest src) := by
  simp only [Statement, encode, Instr.wellFormed, ← Bool.decide_and, and_assoc]
  split <;> simp_all

theorem loadImmediate (d : Nat) (k : Byte) : Statement (.loadImmediate d k) := rfl

end Sys2Proof.Laws.EncodableIffWellFormed
end

