-- ==== Sys2Proof/Laws/Step.lean ====
section
/-! SUPPORT. What fetch and a whole step can do, said once. -/

namespace Sys2Proof.Machine

theorem fetch_of_le {s : State} (h : s.pc.toNat + 4 ≤ 32768) :
    fetch s = .ok (s.pmem.readWindow s.pc.toNat) := if_neg (Nat.not_lt.mpr h)

theorem fetch_of_gt {s : State} (h : 32768 < s.pc.toNat + 4) :
    fetch s = .error (.fetchOutOfBounds s.pc) := if_pos h

/-- A step fails in fetch, fails in decode, or executes the Instruction it fetched. -/
theorem step_cases (s : State) :
    (32768 < s.pc.toNat + 4 ∧ step s = .fault (.fetchOutOfBounds s.pc)) ∨
      (s.pc.toNat + 4 ≤ 32768 ∧ decode (s.pmem.readWindow s.pc.toNat) = none ∧
        step s = .fault (.decodeFailure (s.pmem.readWindow s.pc.toNat).word)) ∨
      ∃ i, s.Fetches i ∧ step s = advanceAfter (exec i s) := by
  rcases Nat.lt_or_ge 32768 (s.pc.toNat + 4) with h | h
  · exact .inl ⟨h, by simp [step, fetch_of_gt h, raise]⟩
  · right
    cases hd : decode (s.pmem.readWindow s.pc.toNat) with
    | none => exact .inl ⟨h, rfl, by simp [step, fetch_of_le h, decodePhase, hd, raise]⟩
    | some i => exact .inr ⟨i, ⟨h, hd⟩, by simp [step, fetch_of_le h, decodePhase, hd]⟩

/-- The next states of a step: the Instruction fetched was executed and the pc advanced. -/
theorem step_next {s t : State} (h : step s = .next t) :
    ∃ i u, s.Fetches i ∧ exec i s = .next u ∧ t = advance u := by
  rcases step_cases s with ⟨-, e⟩ | ⟨-, -, e⟩ | ⟨i, hf, e⟩
  · simp [e] at h
  · simp [e] at h
  · rw [e] at h
    cases hx : exec i s with
    | next u => exact ⟨i, u, hf, hx, by simpa [hx, advanceAfter] using h.symm⟩
    | fault f => simp [hx, advanceAfter] at h
    | refused q => simp [hx, advanceAfter] at h

/-- A step never refuses. -/
theorem step_ne_refused (s : State) (q : Refusal) : step s ≠ .refused q := by
  rcases step_cases s with ⟨-, e⟩ | ⟨-, -, e⟩ | ⟨i, -, e⟩
  · simp [e]
  · simp [e]
  · rw [e]
    cases hx : exec i s with
    | next u => simp [advanceAfter]
    | fault f => simp [advanceAfter]
    | refused q' => exact absurd hx (exec_ne_refused i s q')

/-- The pc of a state that fetches does not wrap when it advances. -/
theorem toNat_advance_pc {s : State} (h : s.pc.toNat + 4 ≤ 32768) :
    (s.pc + 2#16).toNat = s.pc.toNat + 2 := by
  rw [BitVec.toNat_add]
  simp only [BitVec.toNat_ofNat]
  omega

end Sys2Proof.Machine
end

