-- ==== Sys2Proof/Laws/Port.lean ====
section
/-! SUPPORT. What `load` and each request can do, said once. -/

namespace Sys2Proof.Machine

theorem load_of_le {p : List Byte} (s : State) (h : p.length ≤ 32768) :
    load p s = .next { s with pmem := Memory.writeBytes [] 0 p } := if_neg (Nat.not_lt.mpr h)

theorem load_of_gt {p : List Byte} (s : State) (h : 32768 < p.length) :
    load p s = .fault (.programTooLarge p.length) := if_pos h

/-- The next state of a load: the program fits, and program memory alone is replaced. -/
theorem load_next {p : List Byte} {s t : State} (h : load p s = .next t) :
    p.length ≤ 32768 ∧ t = { s with pmem := Memory.writeBytes [] 0 p } := by
  rcases Nat.lt_or_ge 32768 p.length with hl | hl
  · simp [load_of_gt s hl] at h
  · exact ⟨hl, by simpa [load_of_le s hl] using h.symm⟩

@[simp] theorem settle_next (s t : State) : settle s (.next t) = (t, .done) := rfl
@[simp] theorem settle_fault (s : State) (f : Fault) : settle s (.fault f) = (s, .error f) := rfl
@[simp] theorem settle_refused (s : State) (q : Refusal) : settle s (.refused q) = (s, .refused q) := rfl

@[simp] theorem serve_construct (n d : Nat) (s : State) :
    serve (.construct n d) s = (State.construct n d, .done) := rfl
@[simp] theorem serve_load (p : List Byte) (s : State) : serve (.load p) s = settle s (load p s) := rfl
@[simp] theorem serve_step (s : State) : serve .step s = settle s (step s) := rfl
@[simp] theorem serve_execute (i : Instr) (s : State) :
    serve (.execute i) s = settle s (exec i s) := rfl
@[simp] theorem serve_readPc (s : State) : serve .readPc s = (s, .pc s.pc) := rfl

theorem serve_readReg_of_lt {s : State} {i : Nat} (h : i < s.nregs) :
    serve (.readReg i) s = (s, .byte (s.reg i)) := by
  simp [serve, State.readReg, h]

theorem serve_readReg_of_ge {s : State} {i : Nat} (h : s.nregs ≤ i) :
    serve (.readReg i) s = (s, .error (.registerOutOfRange i)) := by
  simp [serve, State.readReg, Nat.not_lt.mpr h]

/-- One more step of the host's run, after a step that answers a next state. -/
theorem core_run_succ_of_next (M : Host.Core) (n : Nat) {s t : M.State} (h : M.step s = .next t) :
    M.run (n + 1) s = M.run n t := by
  simp [Host.Core.run, h]

/-- The host's run stops at the first fault. -/
theorem core_run_succ_of_fault (M : Host.Core) (n : Nat) {s : M.State} {f : M.Fault}
    (h : M.step s = .fault f) : M.run (n + 1) s = .fault f := by
  simp [Host.Core.run, h]

@[simp] theorem runSteps_zero (s : State) : runSteps 0 s = .next s := rfl

theorem runSteps_succ_of_next {s t : State} (n : Nat) (h : step s = .next t) :
    runSteps (n + 1) s = runSteps n t := by
  simp [runSteps, h]

theorem runSteps_succ_of_fault {s : State} {f : Fault} (n : Nat) (h : step s = .fault f) :
    runSteps (n + 1) s = .fault f := by
  simp [runSteps, h]

/-- A run of n steps is the host's run of the machine. -/
theorem runSteps_eq_core_run (n : Nat) (s : State) : runSteps n s = Sys2Proof.core.run n s := by
  induction n generalizing s with
  | zero => rfl
  | succ n ih =>
    cases h : step s with
    | next t =>
      exact (runSteps_succ_of_next n h).trans
        ((ih t).trans (core_run_succ_of_next Sys2Proof.core n h).symm)
    | fault f =>
      exact (runSteps_succ_of_fault n h).trans (core_run_succ_of_fault Sys2Proof.core n h).symm
    | refused q => exact absurd h (step_ne_refused s q)

end Sys2Proof.Machine
end

