-- ==== Sys2Proof/Tests/Slice0.lean ====
section
/-! SUPPORT. Tests of the model against spec/95_test_vectors.md and the encodings written out from
spec/30_encoding.md, and a witness for the hypotheses of each statement. Each expected result is the
spec's; the vector's number stands beside it. -/

namespace Sys2Proof.Tests
open Sys2Proof Sys2Proof.Machine

/-! ### Helpers: a small machine, and looking at a result -/

/-- `n` registers, all 0 but those given; the program at offset 0; the pc given. -/
def machine (n : Nat) (regs : List (Nat × Byte)) (program : List Byte) (pc : Pc) : State :=
  { State.construct n 0 with
    x := regs.foldl (fun x p => x.set p.1 p.2) (List.replicate n 0#8)
    pmem := Memory.writeBytes [] 0 program
    pc := pc }

/-- A field of the next state, if the result is one. -/
def look {α : Type} (r : Result) (f : State → α) : Option α :=
  match r with
  | .next t => some (f t)
  | .fault _ => none
  | .refused _ => none

/-- The error, if the result is one. -/
def faultOf (r : Result) : Option Fault :=
  match r with
  | .next _ => none
  | .fault f => some f
  | .refused _ => none

theorem next_of_look {α : Type} {r : Result} {f : State → α} {v : α} (h : look r f = some v) :
    ∃ t, r = .next t := by
  cases r with
  | next t => exact ⟨t, rfl⟩
  | fault q => simp [look] at h
  | refused q => simp [look] at h

/-! ### Well-formedness: one ill-formed term for each check, and one at each bound -/

theorem test_wf_increment_32 : (Instr.increment 32).wellFormed = false := by decide
theorem test_wf_decrement_32 : (Instr.decrement 32).wellFormed = false := by decide
theorem test_wf_add_dest_64 : (Instr.add 64 0).wellFormed = false := by decide
theorem test_wf_add_src_32 : (Instr.add 0 32).wellFormed = false := by decide
theorem test_wf_add_shared_bit : (Instr.add 1 0).wellFormed = false := by decide
theorem test_wf_loadImmediate : (Instr.loadImmediate 0 0).wellFormed = false := by decide
theorem test_wf_bounds : (Instr.increment 31).wellFormed ∧ (Instr.decrement 31).wellFormed ∧
    (Instr.add 63 31).wellFormed ∧ Instr.noOp.wellFormed := by decide

/-! ### Decoding: words written out bit by bit from the formats -/

theorem test_decode_noOp : decodeWord 0b0000000000000000#16 = some .noOp := by decide
/-- `1001010 rrrrr 0011` with r = 16 (V7). -/
theorem test_decode_increment : decodeWord 0b1001010100000011#16 = some (.increment 16) := by decide
/-- `1001010 rrrrr 1010` with r = 5 (V11). -/
theorem test_decode_decrement : decodeWord 0b1001010001011010#16 = some (.decrement 5) := by decide
/-- `000011 ddddd x ssss` with dest 31 and src 16 (V26). -/
theorem test_decode_add : decodeWord 0b0000110111110000#16 = some (.add 31 16) := by decide
/-- The shared bit is in both fields, never a source of 0 (V20). -/
theorem test_decode_add_shared_bit : decodeWord 0x0C10#16 = some (.add 1 16) := by decide
/-- The last word of the family (V30). -/
theorem test_decode_add_last : decodeWord 0x0FFF#16 = some (.add 63 31) := by decide
/-- LoadImmediate has no encoding (V35). -/
theorem test_decode_no_loadImmediate : decodeWord 0xE00C#16 = none := by decide
/-- Illegal neighbours (V2, V9, V16, V31, V32, V34). -/
theorem test_decode_neighbours : [0x0001#16, 0x9603#16, 0x940B#16, 0x0BFF#16, 0x1000#16,
    0x1C00#16].all (fun w => (decodeWord w).isNone) = true := by decide
/-- The source's byte sequence at offset 2 (S5), and a window whose upper bytes are not zero (S4). -/
theorem test_decode_windows : decode ⟨0x23, 0x94, 0x00, 0x00⟩ = some (.increment 2) ∧
    decode ⟨0x00, 0x00, 0xFF, 0xFF⟩ = some .noOp := by decide
/-- Increment(0) is stored as the bytes 03 94 (R64). -/
theorem test_encode_bytes : encodeBytes (.increment 0) = some [0x03, 0x94] := by decide
/-- What the encoder refuses (V40). -/
theorem test_encode_refuses : [Instr.add 1 0, .add 0 16, .add 16 16, .add 64 0, .add 0 32,
    .increment 32].all (fun i => (encode i).isNone) = true := by decide
/-- The table's numbering: bit 0 is the least significant bit of the first byte. -/
theorem test_table_word : decodeTableWord 16 0x9403 = some (.increment 0) ∧
    decodeTableWord 16 0x0DFF = some (.add 31 31) := by decide

/-! ### The instructions -/

/-- V43: the wrap sets no flag. -/
theorem test_increment_wraps :
    look (exec (.increment 7) (machine 32 [(7, 255)] [] 0)) (fun t => (t.x[7]?, t.flags)) =
      some (some 0, Flags.reset) := by decide
/-- V46. -/
theorem test_increment_out_of_range :
    faultOf (exec (.increment 16) (machine 16 [] [] 0)) = some (.registerOutOfRange 16) := by decide
/-- V47. -/
theorem test_decrement_underflows :
    look (exec (.decrement 5) (machine 32 [] [] 0)) (fun t => t.x[5]?) = some (some 255) := by decide
/-- V51: the index does not wrap. -/
theorem test_decrement_out_of_range :
    faultOf (exec (.decrement 300) (machine 32 [] [] 0)) = some (.registerOutOfRange 300) := by decide
/-- V54. -/
theorem test_add_wraps :
    look (exec (.add 0 2) (machine 32 [(0, 200), (2, 100)] [] 0))
      (fun t => (t.x[0]?, t.x[2]?)) = some (some 44, some 100) := by decide
/-- V65: the word 0x0C10 by step. -/
theorem test_add_shared_bit :
    look (step (machine 32 [(1, 4), (16, 6), (0, 9)] [0x10, 0x0C] 0))
      (fun t => (t.x[1]?, t.x[0]?, t.pc)) = some (some 10, some 9, 2) := by decide
/-- V67: the top of the window is accepted. -/
theorem test_loadImmediate_top :
    look (exec (.loadImmediate 15 7) (machine 32 [] [] 0)) (fun t => (t.x[31]?, t.pc)) =
      some (some 7, 0) := by decide
/-- V76: register 32 exists, but lies above the window. -/
theorem test_loadImmediate_above_window :
    faultOf (exec (.loadImmediate 16 1) (machine 40 [] [] 0)) =
      some (.registerOutOfRange 32) := by decide
/-- V78. -/
theorem test_noOp_step :
    look (step (machine 32 [(1, 9)] [] 4)) (fun t => (t.pc, t.x[1]?)) = some (6, some 9) := by decide

/-! ### Step, load and errors -/

/-- V93: decode succeeds, execute fails. -/
theorem test_step_add_32 :
    faultOf (step (machine 32 [] [0x00, 0x0E] 0)) = some (.registerOutOfRange 32) := by decide
/-- V92: fetch is checked first. -/
theorem test_step_fetch_first :
    faultOf (step { machine 32 [] [] 32766 with pmem := [(32766, 0xFF), (32767, 0xFF)] }) =
      some (.fetchOutOfBounds 32766) := by decide
/-- V85: the last slot, with bytes behind it that are ignored. -/
theorem test_step_last_slot :
    look (step { machine 32 [] [] 32764 with
        pmem := [(32764, 0x0A), (32765, 0x94), (32766, 0xFF), (32767, 0xFF)] })
      (fun t => (t.x[0]?, t.pc)) = some (some 255, 32766) := by decide
/-- S8. -/
theorem test_step_illegal :
    faultOf (step (machine 32 [] [0xFF, 0xFF] 0)) = some (.decodeFailure 0xFFFF) := by decide
/-- S7 and V91: the second load clears the first, and leaves the pc. -/
theorem test_load_clears :
    look (load [0x5A, 0x94] (machine 32 [] [0x03, 0x94, 0x23, 0x94, 0x53, 0x94] 4))
      (fun t => (t.pmem, t.pc)) = some ([(0, 0x5A), (1, 0x94)], 4) := by decide
/-- V95. -/
theorem test_readReg_32 :
    serve (.readReg 32) (machine 32 [] [] 0) =
      (machine 32 [] [] 0, .error (.registerOutOfRange 32)) := by decide
/-- Each decodable row runs as the first instruction after reset. -/
theorem test_reset_runs :
    look (step (State.reset.withFetchWord 16 0x0000)) (fun t => t.pc) = some 2 ∧
      look (step (State.reset.withFetchWord 16 0x9403)) (fun t => t.x[0]?) = some (some 1) ∧
      look (step (State.reset.withFetchWord 16 0x940A)) (fun t => t.x[0]?) = some (some 255) ∧
      look (step (State.reset.withFetchWord 16 0x0C00)) (fun t => t.pc) = some 2 := by decide

/-! ### Witnesses: for each statement with hypotheses, values that meet them, at the bounds -/

theorem witness_onMachine_step : Request.step.onMachine := fun n d h => by cases h
theorem witness_onMachine_not_step : (Request.load [1]).onMachine ∧ Request.load [1] ≠ .step :=
  ⟨fun n d h => (by cases h), by decide⟩
theorem witness_onMachine_not_load : Request.step.onMachine ∧ ∀ p, Request.step ≠ .load p :=
  ⟨fun n d h => (by cases h), fun p h => (by cases h)⟩
theorem witness_EntryPointIsOffsetZero : ∃ t, load [0x03, 0x94] (State.construct 32 0) = .next t :=
  ⟨_, rfl⟩
theorem witness_Step_fetch_fails : 32768 < (machine 32 [] [] 32765).pc.toNat + 4 := by decide
theorem witness_Step_decode_fails :
    (fun s : State => s.pc.toNat + 4 ≤ 32768 ∧
      decode ⟨s.pmem.read s.pc.toNat, s.pmem.read (s.pc.toNat + 1), s.pmem.read (s.pc.toNat + 2),
        s.pmem.read (s.pc.toNat + 3)⟩ = none)
      { machine 32 [] [] 32764 with pmem := [(32764, 0x01)] } := by decide
theorem witness_Step_fetches :
    State.Fetches { machine 32 [] [] 32764 with pmem := [(32764, 0x0A), (32765, 0x94)] }
      (.decrement 0) := by unfold State.Fetches; decide
theorem witness_LittleEndian_fetch :
    fetch (machine 32 [] [0x03, 0x94] 0) = .ok ⟨0x03, 0x94, 0x00, 0x00⟩ := rfl
theorem witness_LittleEndian_load : ∃ t b,
    load [0x03, 0x94] (State.construct 32 0) = .next t ∧ t.pc = 0#16 ∧ fetch t = .ok b ∧
      [0x03#8, 0x94#8][t.pc.toNat]? = some 0x03#8 ∧
      [0x03#8, 0x94#8][t.pc.toNat + 1]? = some 0x94#8 := ⟨_, _, rfl, rfl, rfl, rfl, rfl⟩
theorem witness_DecodePhase_some : decodeWord ((0x03#8).setWidth 16 ||| ((0x94#8).setWidth 16 <<< 8)) =
    some (.increment 0) := by decide
theorem witness_DecodePhase_none :
    fetch (machine 32 [] [0xFF, 0xFF] 0) = .ok ⟨0xFF, 0xFF, 0x00, 0x00⟩ ∧
      decodeWord ((0xFF#8).setWidth 16 ||| ((0xFF#8).setWidth 16 <<< 8)) = none :=
  ⟨rfl, by decide⟩
theorem witness_EntryOrderIsImmaterial : decoderEntries.reverse.Perm decoderEntries :=
  List.reverse_perm _
theorem witness_DecodeOfEncode : (Instr.add 63 31).wellFormed = true ∧
    (Instr.add 64 0).wellFormed = false := by decide
theorem witness_EncodeOfDecode : decode ⟨0xFF, 0x0F, 0x00, 0x00⟩ = some (.add 63 31) := by decide
theorem witness_UpperWindowBytes : ∀ a, a ≠ (machine 32 [] [] 0).pc.toNat + 2 →
    a ≠ (machine 32 [] [] 0).pc.toNat + 3 →
      Memory.read [(2, 0xFF), (3, 0xFF)] a = (machine 32 [] [] 0).pmem.read a := by
  intro a h2 h3
  have e2 : a ≠ 2 := h2
  have e3 : a ≠ 3 := h3
  change (if a = 2 then 0xFF#8 else if a = 3 then 0xFF#8 else Memory.unlisted) = Memory.unlisted
  rw [if_neg e2, if_neg e3]
theorem witness_Increment_words : 0x95F3#16 &&& 0xFE0F#16 = 0x9403#16 ∧
    decodeWord 0x95F3#16 = some (.increment 31) := by decide
theorem witness_Increment_in_range : 31 < (machine 32 [] [0xF3, 0x95] 0).nregs ∧
    (machine 32 [] [0xF3, 0x95] 0).Fetches (.increment 31) := by unfold State.Fetches; decide
theorem witness_Increment_out_of_range : (machine 16 [] [0x03, 0x95] 0).nregs ≤ 16 ∧
    (machine 16 [] [0x03, 0x95] 0).Fetches (.increment 16) := by unfold State.Fetches; decide
theorem witness_Decrement_words : 0x95FA#16 &&& 0xFE0F#16 = 0x940A#16 := by decide
theorem witness_Decrement_in_range : 31 < (machine 32 [] [0xFA, 0x95] 0).nregs ∧
    (machine 32 [] [0xFA, 0x95] 0).Fetches (.decrement 31) := by unfold State.Fetches; decide
theorem witness_Decrement_out_of_range : (machine 16 [] [0x0A, 0x95] 0).nregs ≤ 16 ∧
    (machine 16 [] [0x0A, 0x95] 0).Fetches (.decrement 16) := by unfold State.Fetches; decide
theorem witness_Add_words : 0x0FFF#16 &&& 0xFC00#16 = 0x0C00#16 ∧ 63 ≤ 63 ∧ 31 ≤ 31 ∧
    63 % 2 = 31 / 16 := by decide
theorem witness_Add_in_range : 31 < (machine 32 [] [0xFF, 0x0D] 0).nregs ∧
    (machine 32 [] [0xFF, 0x0D] 0).Fetches (.add 31 31) := by unfold State.Fetches; decide
theorem witness_Add_dest_out_of_range : (machine 32 [] [0x00, 0x0E] 0).nregs ≤ 32 ∧
    (machine 32 [] [0x00, 0x0E] 0).nregs = 32 ∧ decodeWord 0x0E00#16 = some (.add 32 0) ∧
    (machine 32 [] [0x00, 0x0E] 0).Fetches (.add 32 0) := by unfold State.Fetches; decide
theorem witness_Add_src_out_of_range : 1 < (machine 16 [] [0x10, 0x0C] 0).nregs ∧
    (machine 16 [] [0x10, 0x0C] 0).nregs ≤ 16 ∧
    (machine 16 [] [0x10, 0x0C] 0).Fetches (.add 1 16) := by unfold State.Fetches; decide
theorem witness_LoadImmediate_in_window : 15 ≤ 15 ∧ 15 + 16 < (machine 32 [] [] 0).nregs := by decide
theorem witness_LoadImmediate_beyond : 15 < 16 ∧ (machine 20 [] [] 0).nregs ≤ 4 + 16 := by decide
theorem witness_NoOp : (machine 32 [] [] 32764).pc.toNat ≤ 32764 ∧
    (machine 32 [] [] 32764).pmem.read (machine 32 [] [] 32764).pc.toNat = 0#8 ∧
    (machine 32 [] [] 32764).pmem.read ((machine 32 [] [] 32764).pc.toNat + 1) = 0#8 := by decide
theorem witness_AddRegression : 0 ≠ 1 ∧ (machine 32 [(0, 200), (1, 100)] [] 0).x[0]? = some 200#8 ∧
    (machine 32 [(0, 200), (1, 100)] [] 0).x[1]? = some 100#8 := by decide
theorem witness_OutOfRange : OutOfRange (.loadImmediate 4 1) (machine 20 [] [] 0) ∧
    ¬OutOfRange (.loadImmediate 3 1) (machine 20 [] [] 0) := by unfold OutOfRange; decide
theorem witness_step_next : (machine 32 [] [0x03, 0x94] 0).Inv ∧
    ∃ t, step (machine 32 [] [0x03, 0x94] 0) = .next t :=
  ⟨by unfold State.Inv; decide, next_of_look (f := fun t => t.pc) (v := 2) (by decide)⟩
theorem witness_run_next : ∃ t, runSteps 2 (machine 32 [] [0x03, 0x94, 0x23, 0x94] 0) = .next t :=
  next_of_look (f := fun t => t.pc) (v := 4) (by decide)
theorem witness_controller_busy : (Controller.requestStep ⟨.idle, machine 32 [] [] 0, none⟩).phase ≠
    .idle := by decide
theorem witness_ZeroMemory : (State.construct 32 0).pc.toNat + 2 * 16383 = 32766 ∧
    ∀ a, (State.construct 32 0).pc.toNat ≤ a → a < 32766 →
      (State.construct 32 0).pmem.read a = 0#8 := ⟨by decide, fun _ _ _ => rfl⟩
theorem witness_step_done : (serve .step (machine 32 [] [] 32764)).2 = .done ∧
    (serve .step (machine 32 [] [] 32766)).2 ≠ .done := by decide
theorem witness_Coherent : ∃ t u, load [0x03, 0x94] (State.construct 32 0) = .next t ∧
    runSteps 1 t = .next u ∧ u.pc.toNat + 4 ≤ 32768 := by
  refine ⟨machine 32 [] [0x03, 0x94] 0, machine 32 [(0, 1)] [0x03, 0x94] 2, rfl, rfl, by decide⟩
theorem witness_load_bounds : (List.replicate 32768 0x03#8).length ≤ 32768 ∧
    32768 < (List.replicate 32769 0x03#8).length := by
  simp only [List.length_replicate]
  decide
theorem witness_failed_operation :
    (serve .step (machine 32 [] [0xFF, 0xFF] 0)).2 = .error (.decodeFailure 0xFFFF) := by decide
theorem witness_readReg : (machine 32 [] [] 0).x[31]? = some 0#8 ∧ (machine 32 [] [] 0).nregs ≤ 32 := by
  decide

end Sys2Proof.Tests
end

