-- ==== Sys2Proof/Proofs/State.lean ====
section
/-! PROOFS. The statements about the state as a whole (spec/10_state.md): the invariant a step keeps
(R15), the fields that no operation on a machine writes (R17, R21, R24), and the updates of the
state that no operation notices (R17, R21). -/

namespace Sys2Proof.Machine

/-! ### The invariant -/

/-- The invariant does not look at the register file. -/
theorem State.Inv.setReg {s : State} (h : s.Inv) (r : Nat) (v : Byte) : (s.setReg r v).Inv := h

/-- Where the fetch window fits, the pc is at most 32764, so the advance lands within the bound. -/
theorem State.Inv.advance {s : State} (h : s.Inv) (hpc : s.pc.toNat + 4 ≤ 32768) :
    (advance s).Inv := by
  obtain ⟨hpmem, hdmem, heven, -⟩ := h
  have hadv : (Machine.advance s).pc.toNat = s.pc.toNat + 2 := toNat_advance_pc hpc
  exact ⟨hpmem, hdmem, by omega, by omega⟩

/-- The execute phase leaves the pc to the advance phase (R86, R88). -/
theorem exec_next_pc {i : Instr} {s t : State} (h : exec i s = .next t) : t.pc = s.pc := by
  rcases exec_next h with rfl | ⟨r, v, -, rfl⟩
  · rfl
  · rfl

theorem exec_keeps_inv {i : Instr} {s t : State} (hs : s.Inv) (h : exec i s = .next t) : t.Inv := by
  rcases exec_next h with rfl | ⟨r, v, -, rfl⟩
  · exact hs
  · exact hs.setReg r v

/-- Settles O29: a step that answers a next state has fetched, so its pc was at most 32764; execute
keeps the invariant, and the advance from there does. -/
theorem stepKeepsInvariant : Obligations.StepKeepsInvariant := by
  intro s t hs h
  obtain ⟨i, u, ⟨hpc, -⟩, hx, rfl⟩ := step_next h
  have hu : u.pc.toNat + 4 ≤ 32768 := by rwa [exec_next_pc hx]
  exact (exec_keeps_inv hs hx).advance hu

/-! ### The fields no operation on a machine writes -/

/-- `t` has the sizes, the flags and the data memory of `s`. It may differ in the registers' values,
program memory and the pc. -/
structure SameFixedFields (s t : State) : Prop where
  nregs : t.nregs = s.nregs
  flags : t.flags = s.flags
  dmem : t.dmem = s.dmem
  dmemSize : t.dmemSize = s.dmemSize

theorem SameFixedFields.refl (s : State) : SameFixedFields s s := ⟨rfl, rfl, rfl, rfl⟩

theorem SameFixedFields.setReg (s : State) (r : Nat) (v : Byte) :
    SameFixedFields s (s.setReg r v) := ⟨setReg_nregs s r v, rfl, rfl, rfl⟩

theorem SameFixedFields.advance {s t : State} (h : SameFixedFields s t) :
    SameFixedFields s (advance t) := ⟨h.nregs, h.flags, h.dmem, h.dmemSize⟩

theorem load_sameFixedFields {p : List Byte} {s t : State} (h : load p s = .next t) :
    SameFixedFields s t := by
  obtain ⟨-, rfl⟩ := load_next h
  exact ⟨rfl, rfl, rfl, rfl⟩

theorem exec_sameFixedFields {i : Instr} {s t : State} (h : exec i s = .next t) :
    SameFixedFields s t := by
  rcases exec_next h with rfl | ⟨r, v, -, rfl⟩
  · exact .refl t
  · exact .setReg s r v

theorem step_sameFixedFields {s t : State} (h : step s = .next t) : SameFixedFields s t := by
  obtain ⟨i, u, -, hx, rfl⟩ := step_next h
  exact (exec_sameFixedFields hx).advance

/-- A failed operation leaves the state it found (R146), so only a next state is in question. -/
theorem settle_sameFixedFields {s : State} {r : Result}
    (h : ∀ t, r = .next t → SameFixedFields s t) : SameFixedFields s (settle s r).1 := by
  cases r with
  | next t => exact h t rfl
  | fault f => exact .refl s
  | refused q => exact .refl s

/-- Reading a register leaves the state alone, whether or not the index is in range (R96). -/
theorem serve_readReg_state (i : Nat) (s : State) : (serve (.readReg i) s).1 = s := by
  rcases Nat.lt_or_ge i s.nregs with h | h
  · rw [serve_readReg_of_lt h]
  · rw [serve_readReg_of_ge h]

theorem serve_sameFixedFields {q : Request} (hq : q.onMachine) (s : State) :
    SameFixedFields s (serve q s).1 := by
  cases q with
  | construct n d => exact absurd rfl (hq n d)
  | load p => exact settle_sameFixedFields fun _ => load_sameFixedFields
  | step => exact settle_sameFixedFields fun _ => step_sameFixedFields
  | execute i => exact settle_sameFixedFields fun _ => exec_sameFixedFields
  | readReg i => rw [serve_readReg_state]; exact .refl s
  | readPc => exact .refl s

/-- Settles O3: construction gives the sizes it was asked for, and the sizes are among the fields no
operation on a machine writes. -/
theorem sizesAreFixedAtConstruction : Obligations.SizesAreFixedAtConstruction := by
  refine ⟨fun n d s => ⟨construct_nregs n d, construct_dmemSize n d⟩, fun q s hq => ?_⟩
  have hfix := serve_sameFixedFields hq s
  exact ⟨hfix.nregs, hfix.dmemSize⟩

/-! ### A step, phase by phase -/

theorem step_of_fetch_error {s : State} {f : Fault} (hf : fetch s = .error f) :
    step s = .fault f := by
  simp [step, hf, raise]

theorem step_of_decode_error {s : State} {b : Window} {f : Fault} (hf : fetch s = .ok b)
    (hd : decodePhase b = .error f) : step s = .fault f := by
  simp [step, hf, hd, raise]

theorem step_of_decode_ok {s : State} {b : Window} {i : Instr} (hf : fetch s = .ok b)
    (hd : decodePhase b = .ok i) : step s = advanceAfter (exec i s) := by
  simp [step, hf, hd]

/-! ### The updates of the state no operation notices -/

/-- `g` changes nothing the execute phase reads, and commutes with the only write it makes. -/
structure InertInExec (g : State → State) : Prop where
  x : ∀ s, (g s).x = s.x
  setReg : ∀ s r v, g (s.setReg r v) = (g s).setReg r v

/-- `g` moreover changes nothing that fetch reads, and commutes with the other two writes there are:
the advance of the pc and the replacement of program memory. -/
structure Inert (g : State → State) : Prop extends InertInExec g where
  pmem : ∀ s, (g s).pmem = s.pmem
  pc : ∀ s, (g s).pc = s.pc
  advance : ∀ s, g (advance s) = advance (g s)
  setPmem : ∀ s m, g { s with pmem := m } = { g s with pmem := m }

section inertInExec
variable {g : State → State} (hg : InertInExec g)
include hg

theorem InertInExec.nregs (s : State) : (g s).nregs = s.nregs := congrArg List.length (hg.x s)

theorem InertInExec.reg (s : State) (i : Nat) : (g s).reg i = s.reg i :=
  congrArg (List.getD · i 0#8) (hg.x s)

theorem InertInExec.requireReg (i : Nat) (s : State) (k : Result) :
    requireReg i (g s) (mapNext g k) = mapNext g (requireReg i s k) := by
  rcases requireReg_cases i s k with ⟨h, e⟩ | ⟨h, e⟩
  · rw [e, requireReg_of_lt _ (by rwa [hg.nregs])]
  · rw [e, requireReg_of_ge _ (by rwa [hg.nregs])]
    rfl

theorem InertInExec.requireWindow (d : Nat) (s : State) (k : Result) :
    requireWindow d (g s) (mapNext g k) = mapNext g (requireWindow d s k) := by
  unfold Machine.requireWindow
  split
  · rfl
  · exact hg.requireReg _ s k

theorem InertInExec.writeBack (r : Nat) (v : Byte) (s : State) :
    Host.Outcome.next (writeBack r v (g s)) = mapNext g (.next (writeBack r v s)) := by
  rw [writeBack_eq, writeBack_eq, ← hg.setReg]
  rfl

theorem InertInExec.updateReg (f : Byte → Byte) (r : Nat) (s : State) :
    updateReg f r (g s) = mapNext g (updateReg f r s) := by
  unfold Machine.updateReg
  rw [hg.reg, hg.writeBack, hg.requireReg]

theorem InertInExec.execAdd (d r : Nat) (s : State) :
    execAdd d r (g s) = mapNext g (execAdd d r s) := by
  unfold Machine.execAdd
  rw [hg.reg, hg.reg, hg.writeBack, hg.requireReg, hg.requireReg]

theorem InertInExec.execLoadImmediate (d : Nat) (k : Byte) (s : State) :
    execLoadImmediate d k (g s) = mapNext g (execLoadImmediate d k s) := by
  unfold Machine.execLoadImmediate
  rw [hg.writeBack, hg.requireWindow]

/-- The execute phase gives the same result before and after an update it does not notice. -/
theorem InertInExec.exec (i : Instr) (s : State) : exec i (g s) = mapNext g (exec i s) := by
  cases i with
  | noOp => rfl
  | increment r => exact hg.updateReg aluInc r s
  | decrement r => exact hg.updateReg aluDec r s
  | add d r => exact hg.execAdd d r s
  | loadImmediate d k => exact hg.execLoadImmediate d k s

end inertInExec

theorem settle_mapNext (g : State → State) (s : State) (r : Result) :
    settle (g s) (mapNext g r) = (g (settle s r).1, (settle s r).2) := by
  cases r with
  | next t => rfl
  | fault f => rfl
  | refused q => rfl

section inert
variable {g : State → State} (hg : Inert g)
include hg

theorem Inert.fetch (s : State) : fetch (g s) = fetch s := by
  simp only [Machine.fetch, hg.pc, hg.pmem]

theorem Inert.advanceAfter (r : Result) :
    advanceAfter (mapNext g r) = mapNext g (advanceAfter r) := by
  cases r with
  | next t => exact congrArg Host.Outcome.next (hg.advance t).symm
  | fault f => rfl
  | refused q => rfl

/-- Fetch and decode give the same Instruction or the same error; execute and advance commute. -/
theorem Inert.step (s : State) : step (g s) = mapNext g (step s) := by
  have hfetch := hg.fetch s
  cases hf : Machine.fetch s with
  | error f =>
    rw [step_of_fetch_error hf, step_of_fetch_error (hfetch.trans hf)]
    rfl
  | ok b =>
    cases hd : decodePhase b with
    | error f =>
      rw [step_of_decode_error hf hd, step_of_decode_error (hfetch.trans hf) hd]
      rfl
    | ok i =>
      rw [step_of_decode_ok hf hd, step_of_decode_ok (hfetch.trans hf) hd, hg.exec,
        hg.advanceAfter]

theorem Inert.load (p : List Byte) (s : State) : load p (g s) = mapNext g (load p s) := by
  rcases Nat.lt_or_ge 32768 p.length with h | h
  · rw [load_of_gt _ h, load_of_gt _ h]
    rfl
  · rw [load_of_le _ h, load_of_le _ h, ← hg.setPmem]
    rfl

/-- Every request on a machine gives the same response, and the same state but for the update. -/
theorem Inert.serve {q : Request} (hq : q.onMachine) (s : State) :
    serve q (g s) = (g (serve q s).1, (serve q s).2) := by
  cases q with
  | construct n d => exact absurd rfl (hq n d)
  | load p => rw [serve_load, serve_load, hg.load, settle_mapNext]
  | step => rw [serve_step, serve_step, hg.step, settle_mapNext]
  | execute i => rw [serve_execute, serve_execute, hg.exec, settle_mapNext]
  | readReg i =>
    rcases Nat.lt_or_ge i s.nregs with h | h
    · rw [serve_readReg_of_lt h, serve_readReg_of_lt (by rwa [hg.nregs]), hg.reg]
    · rw [serve_readReg_of_ge h, serve_readReg_of_ge (by rwa [hg.nregs])]
  | readPc => rw [serve_readPc, serve_readPc, hg.pc]

end inert

/-- The machine with other flags. -/
def State.withFlags (f : Flags) (s : State) : State := { s with flags := f }

/-- The machine with another data memory. -/
def State.withDmem (m : Memory) (s : State) : State := { s with dmem := m }

theorem inert_withFlags (f : Flags) : Inert (State.withFlags f) where
  x _ := rfl
  setReg _ _ _ := rfl
  pmem _ := rfl
  pc _ := rfl
  advance _ := rfl
  setPmem _ _ := rfl

theorem inert_withDmem (m : Memory) : Inert (State.withDmem m) where
  x _ := rfl
  setReg _ _ _ := rfl
  pmem _ := rfl
  pc _ := rfl
  advance _ := rfl
  setPmem _ _ := rfl

/-- Settles O35: the flags are among the fields no operation on a machine writes, and replacing them
is an update none notices. -/
theorem flagsAreNeverWrittenOrRead : Obligations.FlagsAreNeverWrittenOrRead := fun _ s hq =>
  ⟨(serve_sameFixedFields hq s).flags, fun f => (inert_withFlags f).serve hq s⟩

/-- Settles O36: data memory is among the fields no operation on a machine writes, and replacing it
is an update none notices. -/
theorem dataMemoryIsNeverTouched : Obligations.DataMemoryIsNeverTouched := fun _ s hq =>
  ⟨(serve_sameFixedFields hq s).dmem, fun m => (inert_withDmem m).serve hq s⟩

end Sys2Proof.Machine
end

