-- ==== Sys2Proof/Proofs/Memory.lean ====
section
/-! PROOFS. The statements about program memory (spec/20_memory.md): its only writers, what a load
leaves in it, and the order in which fetch reads its bytes (R31, R45). -/

namespace Sys2Proof

/-! ### The halves of an instruction word -/

theorem word_low_byte (b : Window) : b.word.extractLsb' 0 8 = b.b0 := by
  apply BitVec.eq_of_toNat_eq
  rw [BitVec.extractLsb'_toNat, word_toNat, Nat.shiftRight_zero]
  omega

theorem word_high_byte (b : Window) : b.word.extractLsb' 8 8 = b.b1 := by
  apply BitVec.eq_of_toNat_eq
  rw [BitVec.extractLsb'_toNat, word_toNat, Nat.shiftRight_eq_div_pow]
  omega

end Sys2Proof

namespace Sys2Proof.Machine

/-! ### What a load leaves in program memory -/

/-- A byte of the program is at its own offset. -/
theorem load_next_read_inside {p : List Byte} {s t : State} (h : load p s = .next t) {a : Nat}
    {b : Byte} (ha : p[a]? = some b) : t.pmem.read a = b := by
  obtain ⟨hlen, rfl⟩ := load_next h
  obtain ⟨hlt, rfl⟩ := List.getElem?_eq_some_iff.mp ha
  have hread := read_writeBytes_inside (wf_nil 32768) p 0 a (by omega) hlt
  rwa [Nat.zero_add] at hread

/-- From the end of the program on, no byte of an earlier one is left. -/
theorem load_next_read_beyond {p : List Byte} {s t : State} (h : load p s = .next t) {a : Nat}
    (ha : p.length ≤ a) : t.pmem.read a = 0#8 := by
  obtain ⟨-, rfl⟩ := load_next h
  exact read_writeBytes_outside [] p 0 (.inr (by omega))

/-! ### The writers of program memory -/

theorem exec_next_pmem {i : Instr} {s t : State} (h : exec i s = .next t) : t.pmem = s.pmem := by
  rcases exec_next h with rfl | ⟨r, v, -, rfl⟩
  · rfl
  · rfl

theorem step_next_pmem {s t : State} (h : step s = .next t) : t.pmem = s.pmem := by
  obtain ⟨i, u, -, hx, rfl⟩ := step_next h
  exact (advance_pmem u).trans (exec_next_pmem hx)

/-- A failed operation leaves the state it found (R146), so only a next state is in question. -/
theorem settle_pmem {s : State} {r : Result} (h : ∀ t, r = .next t → t.pmem = s.pmem) :
    (settle s r).1.pmem = s.pmem := by
  cases r with
  | next t => exact h t rfl
  | fault f => rfl
  | refused q => rfl

/-- Program memory has no writer but construction and `load`. -/
theorem serve_pmem {q : Request} (hq : q.onMachine) (hload : ∀ p, q ≠ .load p) (s : State) :
    (serve q s).1.pmem = s.pmem := by
  cases q with
  | construct n d => exact absurd rfl (hq n d)
  | load p => exact absurd rfl (hload p)
  | step => exact settle_pmem fun _ => step_next_pmem
  | execute i => exact settle_pmem fun _ => exec_next_pmem
  | readReg i => rw [serve_readReg_state]
  | readPc => rfl

/-- The first step of a run that answers a next state answers one, and the rest runs on from it. -/
theorem runSteps_succ_next {n : Nat} {s u : State} (h : runSteps (n + 1) s = .next u) :
    ∃ t, step s = .next t ∧ runSteps n t = .next u := by
  cases hs : step s with
  | next t => exact ⟨t, rfl, (runSteps_succ_of_next n hs).symm.trans h⟩
  | fault f => simp [runSteps_succ_of_fault n hs] at h
  | refused q => exact absurd hs (step_ne_refused s q)

theorem runSteps_next_pmem {n : Nat} {s u : State} (h : runSteps n s = .next u) :
    u.pmem = s.pmem := by
  induction n generalizing s with
  | zero =>
    obtain rfl : s = u := by simpa using h
    rfl
  | succ n ih =>
    obtain ⟨t, hst, hrun⟩ := runSteps_succ_next h
    exact (ih hrun).trans (step_next_pmem hst)

/-- Settles O38: steps leave program memory as the load left it, so a later fetch reads the loaded
bytes, whichever registers the steps wrote. -/
theorem loadThenFetchIsCoherent : Obligations.LoadThenFetchIsCoherent := by
  refine ⟨fun q s hq hload a => ?_, fun p s t h => ⟨fun a b => load_next_read_inside h,
    fun a => load_next_read_beyond h⟩, fun p s t u n _ hrun hpc => ?_⟩
  · rw [serve_pmem hq hload]
  · rw [fetch_of_le hpc, runSteps_next_pmem hrun]
    rfl

/-! ### The byte order of fetch -/

/-- The windows fetch yields: the window fits, and it is read at the pc. -/
theorem fetch_ok {s : State} {b : Window} (h : fetch s = .ok b) :
    s.pc.toNat + 4 ≤ 32768 ∧ b = s.pmem.readWindow s.pc.toNat := by
  rcases Nat.lt_or_ge 32768 (s.pc.toNat + 4) with hpc | hpc
  · simp [fetch_of_gt hpc] at h
  · exact ⟨hpc, by simpa [fetch_of_le hpc] using h.symm⟩

/-- After a load, two bytes of the program at the pc are fetched as one word, low byte first. -/
theorem fetch_word_toNat_of_load {p : List Byte} {s t : State} {b : Window} {lo hi : Byte}
    (h : load p s = .next t) (hf : fetch t = .ok b) (hlo : p[t.pc.toNat]? = some lo)
    (hhi : p[t.pc.toNat + 1]? = some hi) : b.word.toNat = lo.toNat + 256 * hi.toNat := by
  obtain ⟨-, rfl⟩ := fetch_ok hf
  have h0 : (t.pmem.readWindow t.pc.toNat).b0 = lo := load_next_read_inside h hlo
  have h1 : (t.pmem.readWindow t.pc.toNat).b1 = hi := load_next_read_inside h hhi
  rw [word_toNat, h0, h1]

/-- Settles O5: the word's halves are the window's first two bytes, and a load puts the image's
bytes there in its own order; the source's example is one such image. -/
theorem fetchIsLittleEndian : Obligations.FetchIsLittleEndian := by
  refine ⟨fun s b hf => ?_, fun p s t b lo hi => fetch_word_toNat_of_load,
    fun s t b h hpc hf => ?_⟩
  · obtain ⟨-, rfl⟩ := fetch_ok hf
    exact ⟨word_low_byte _, word_high_byte _⟩
  · apply BitVec.eq_of_toNat_eq
    have hlo : [0x03#8, 0x94#8][t.pc.toNat]? = some 0x03#8 := by simp [hpc]
    have hhi : [0x03#8, 0x94#8][t.pc.toNat + 1]? = some 0x94#8 := by simp [hpc]
    exact fetch_word_toNat_of_load h hf hlo hhi

end Sys2Proof.Machine
end

