-- ==== Sys2Proof/Proofs/Encoding.lean ====
section
/-! PROOFS. The statements about the decoder and the encoder (spec/30_encoding.md): the decoder as a
set of disjoint entries (R61), the words of each entry (R54 to R60), and the encoder as the
decoder's inverse (R64). -/

namespace Sys2Proof

/-! ### First match over disjoint entries -/

theorem hits_iff (e : DecoderEntry) (w : Word) : e.hits w = true ↔ w &&& e.mask = e.expected :=
  beq_iff_eq

/-- Two entries ask for different bits at a place both test. -/
def Conflict (e e' : DecoderEntry) : Prop := e.expected &&& e'.mask ≠ e'.expected &&& e.mask

theorem Conflict.symm {e e' : DecoderEntry} (h : Conflict e e') : Conflict e' e := Ne.symm h

/-- Under both masks a word shows the bits each of the two entries expects there. -/
theorem Conflict.not_hits {e e' : DecoderEntry} (h : Conflict e e') {w : Word}
    (he : e.hits w = true) : e'.hits w = false := by
  rw [Bool.eq_false_iff]
  intro he'
  rw [hits_iff] at he he'
  apply h
  rw [← he, ← he', BitVec.and_assoc, BitVec.and_assoc, BitVec.and_comm e.mask]

theorem firstMatch_eq_none_iff (es : List DecoderEntry) (w : Word) :
    firstMatch es w = none ↔ ∀ e ∈ es, e.hits w = false := by
  induction es with
  | nil => simp [firstMatch]
  | cons e es ih => cases he : e.hits w <;> simp [firstMatch, he, ih]

/-- Where no two entries hit the same word, being first in the list does not matter. -/
theorem firstMatch_eq_some_iff {es : List DecoderEntry} (hes : es.Pairwise Conflict) (w : Word)
    (i : Instr) : firstMatch es w = some i ↔ ∃ e ∈ es, e.hits w = true ∧ e.build w = i := by
  induction es with
  | nil => simp [firstMatch]
  | cons e es ih =>
    obtain ⟨hconflict, hes⟩ := List.pairwise_cons.mp hes
    cases he : e.hits w with
    | false => simp [firstMatch, he, ih hes]
    | true =>
      have hrest : ∀ e' ∈ es, e'.hits w = false := fun e' h => (hconflict e' h).not_hits he
      simp +contextual [firstMatch, he, hrest]

theorem firstMatch_perm {es es' : List DecoderEntry} (h : es.Perm es')
    (hes : es'.Pairwise Conflict) (w : Word) : firstMatch es w = firstMatch es' w := by
  have hes' : es.Pairwise Conflict := (h.pairwise_iff Conflict.symm).mpr hes
  apply Option.ext
  intro i
  simp only [firstMatch_eq_some_iff hes, firstMatch_eq_some_iff hes', h.mem_iff]

theorem decoderEntries_pairwise_conflict : decoderEntries.Pairwise Conflict := by
  unfold Conflict
  decide

/-- Settles O14: any two of the four entries conflict, and first match over conflicting entries does
not depend on their order. -/
theorem entryOrderIsImmaterial : Obligations.EntryOrderIsImmaterial :=
  fun _ hperm w => firstMatch_perm hperm decoderEntries_pairwise_conflict w

/-! ### The decoder, entry by entry -/

theorem zeroEntry_hits (w : Word) : zeroEntry.hits w = true ↔ w = 0x0000#16 := by
  have hmask : w &&& 0xFFFF#16 = w := BitVec.and_allOnes
  rw [hits_iff, zeroEntry, hmask]

theorem incrementEntry_hits (w : Word) :
    incrementEntry.hits w = true ↔ w &&& 0xFE0F#16 = 0x9403#16 := hits_iff incrementEntry w

theorem decrementEntry_hits (w : Word) :
    decrementEntry.hits w = true ↔ w &&& 0xFE0F#16 = 0x940A#16 := hits_iff decrementEntry w

theorem addEntry_hits (w : Word) : addEntry.hits w = true ↔ w &&& 0xFC00#16 = 0x0C00#16 :=
  hits_iff addEntry w

theorem decodeWord_eq_none_iff (w : Word) :
    decodeWord w = none ↔ w ≠ 0x0000#16 ∧ w &&& 0xFE0F#16 ≠ 0x9403#16 ∧
      w &&& 0xFE0F#16 ≠ 0x940A#16 ∧ w &&& 0xFC00#16 ≠ 0x0C00#16 := by
  simp [decodeWord, firstMatch_eq_none_iff, decoderEntries, ← zeroEntry_hits,
    ← incrementEntry_hits, ← decrementEntry_hits, ← addEntry_hits]

/-- What the decoder can answer: one disjunct per entry, with no word about the order. -/
theorem decodeWord_eq_some_iff (w : Word) (i : Instr) :
    decodeWord w = some i ↔ (w = 0x0000#16 ∧ .noOp = i) ∨
      (w &&& 0xFE0F#16 = 0x9403#16 ∧ .increment (regField w) = i) ∨
      (w &&& 0xFE0F#16 = 0x940A#16 ∧ .decrement (regField w) = i) ∨
      (w &&& 0xFC00#16 = 0x0C00#16 ∧ .add (destField w) (srcField w) = i) := by
  rw [decodeWord, firstMatch_eq_some_iff decoderEntries_pairwise_conflict, ← zeroEntry_hits,
    ← incrementEntry_hits, ← decrementEntry_hits, ← addEntry_hits]
  simp [decoderEntries, zeroEntry, incrementEntry, decrementEntry, addEntry]

theorem decodeWord_eq_noOp_iff (w : Word) : decodeWord w = some .noOp ↔ w = 0x0000#16 := by
  simp [decodeWord_eq_some_iff]

theorem decodeWord_eq_increment_iff (w : Word) (r : Nat) :
    decodeWord w = some (.increment r) ↔ w &&& 0xFE0F#16 = 0x9403#16 ∧ r = regField w := by
  simp [decodeWord_eq_some_iff, eq_comm (a := r)]

theorem decodeWord_eq_decrement_iff (w : Word) (r : Nat) :
    decodeWord w = some (.decrement r) ↔ w &&& 0xFE0F#16 = 0x940A#16 ∧ r = regField w := by
  simp [decodeWord_eq_some_iff, eq_comm (a := r)]

theorem decodeWord_eq_add_iff (w : Word) (d r : Nat) :
    decodeWord w = some (.add d r) ↔
      w &&& 0xFC00#16 = 0x0C00#16 ∧ d = destField w ∧ r = srcField w := by
  simp [decodeWord_eq_some_iff, eq_comm (a := d), eq_comm (a := r)]

theorem decodeWord_ne_loadImmediate (w : Word) (d : Nat) (k : Byte) :
    decodeWord w ≠ some (.loadImmediate d k) := by
  simp [decodeWord_eq_some_iff]

/-- Settles O6: the list is the spec's, and first match over it is the nested test. -/
theorem decoderFollowsItsPseudocode : Obligations.DecoderFollowsItsPseudocode := by
  refine ⟨rfl, fun w => ?_⟩
  simp only [decodeWord, decoderEntries, firstMatch, zeroEntry_hits, incrementEntry_hits,
    decrementEntry_hits, addEntry_hits]
  rfl

/-! ### The words of the single-register family -/

/-- An operand that fits a field of `n` bits is that field's value. -/
theorem exists_toNat_eq {n r : Nat} (h : r < 2 ^ n) : ∃ x : BitVec n, x.toNat = r :=
  ⟨.ofNatLT r h, rfl⟩

theorem regWord_and_mask {op : Word} (hop : op &&& 0xFE0F#16 = op) (x : BitVec 5) :
    (op ||| x.setWidth 16 <<< 4) &&& 0xFE0F#16 = op := by
  have hx : x.setWidth 16 <<< 4 &&& 0xFE0F#16 = 0#16 := by
    apply BitVec.eq_of_getLsbD_eq
    intro i hi
    interval_cases i <;> simp
  rw [BitVec.and_or_distrib_right, hop, hx, BitVec.or_zero]

theorem regField_regWord {op : Word} (hop : op &&& 0xFE0F#16 = op) (x : BitVec 5) :
    regField (op ||| x.setWidth 16 <<< 4) = x.toNat := by
  have hbits : (op ||| x.setWidth 16 <<< 4).extractLsb' 4 5 = x := by
    rw [← hop]
    apply BitVec.eq_of_getLsbD_eq
    intro i hi
    interval_cases i <;> simp
  rw [regField_eq, hbits]

/-- The masked test and the field's value say together that the word is the opcode with the register
in bits 8 to 4. -/
theorem regWord_iff {op : Word} (hop : op &&& 0xFE0F#16 = op) (w : Word) (r : Nat) :
    w &&& 0xFE0F#16 = op ∧ r = regField w ↔
      r ≤ 31 ∧ w = op ||| (BitVec.ofNat 16 r <<< 4) := by
  constructor
  · rintro ⟨hw, rfl⟩
    refine ⟨regField_le w, ?_⟩
    rw [regField_shiftLeft, ← hw]
    exact (and_or_and_not w 0xFE0F#16).symm
  · rintro ⟨hr, rfl⟩
    obtain ⟨x, rfl⟩ := exists_toNat_eq (n := 5) (Nat.lt_succ_of_le hr)
    rw [BitVec.ofNat_toNat]
    exact ⟨regWord_and_mask hop x, (regField_regWord hop x).symm⟩

theorem incrementWord_iff (w : Word) (r : Nat) :
    decodeWord w = some (.increment r) ↔
      r ≤ 31 ∧ w = 0x9403#16 ||| (BitVec.ofNat 16 r <<< 4) :=
  (decodeWord_eq_increment_iff w r).trans (regWord_iff rfl w r)

theorem decrementWord_iff (w : Word) (r : Nat) :
    decodeWord w = some (.decrement r) ↔
      r ≤ 31 ∧ w = 0x940A#16 ||| (BitVec.ofNat 16 r <<< 4) :=
  (decodeWord_eq_decrement_iff w r).trans (regWord_iff rfl w r)

/-- Settles O9: entry 2's test and field, and the words made from them. -/
theorem incrementWords : Obligations.IncrementWords := fun w r =>
  ⟨regField_eq w ▸ decodeWord_eq_increment_iff w r, incrementWord_iff w r⟩

/-- Settles O10: entry 3's test and field, and the words made from them. -/
theorem decrementWords : Obligations.DecrementWords := fun w r =>
  ⟨regField_eq w ▸ decodeWord_eq_decrement_iff w r, decrementWord_iff w r⟩

/-! ### The words of Add -/

/-- The two fields overlap in bit 4 (R59). -/
theorem destField_mod_two (w : Word) : destField w % 2 = srcField w / 16 := by
  rw [destField_eq, srcField_eq, BitVec.extractLsb'_toNat, BitVec.extractLsb'_toNat,
    Nat.shiftRight_eq_div_pow, Nat.shiftRight_zero]
  omega

theorem fields_shiftLeft_or (w : Word) :
    BitVec.ofNat 16 (destField w) <<< 4 ||| BitVec.ofNat 16 (srcField w) = w &&& 0x03FF#16 := by
  rw [destField_shiftLeft, srcField_ofNat, ← BitVec.and_or_distrib_left]
  rfl

section addWord
/-! `x` and `y` are the two fields, which agree in the bit they share. -/

variable {x : BitVec 6} {y : BitVec 5}

theorem addWord_and_mask :
    (0x0C00#16 ||| x.setWidth 16 <<< 4 ||| y.setWidth 16) &&& 0xFC00#16 = 0x0C00#16 := by
  apply BitVec.eq_of_getLsbD_eq
  intro i hi
  interval_cases i <;> simp

theorem shared_bit_of_toNat (hbit : x.toNat % 2 = y.toNat / 16) : x[0] = y[4] := by
  rw [BitVec.getElem_eq_testBit_toNat, BitVec.getElem_eq_testBit_toNat,
    Nat.testBit_eq_decide_div_mod_eq, Nat.testBit_eq_decide_div_mod_eq]
  congr 2
  omega

theorem destField_addWord (hbit : x[0] = y[4]) :
    destField (0x0C00#16 ||| x.setWidth 16 <<< 4 ||| y.setWidth 16) = x.toNat := by
  have hbits : (0x0C00#16 ||| x.setWidth 16 <<< 4 ||| y.setWidth 16).extractLsb' 4 6 = x := by
    apply BitVec.eq_of_getLsbD_eq
    intro i hi
    interval_cases i <;> simp [hbit]
  rw [destField_eq, hbits]

theorem srcField_addWord (hbit : x[0] = y[4]) :
    srcField (0x0C00#16 ||| x.setWidth 16 <<< 4 ||| y.setWidth 16) = y.toNat := by
  have hbits : (0x0C00#16 ||| x.setWidth 16 <<< 4 ||| y.setWidth 16).extractLsb' 0 5 = y := by
    apply BitVec.eq_of_getLsbD_eq
    intro i hi
    interval_cases i <;> simp [hbit]
  rw [srcField_eq, hbits]

end addWord

theorem addWord_iff (w : Word) (d r : Nat) :
    decodeWord w = some (.add d r) ↔
      d ≤ 63 ∧ r ≤ 31 ∧ d % 2 = r / 16 ∧
        w = 0x0C00#16 ||| (BitVec.ofNat 16 d <<< 4) ||| BitVec.ofNat 16 r := by
  rw [decodeWord_eq_add_iff]
  constructor
  · rintro ⟨hw, rfl, rfl⟩
    refine ⟨destField_le w, srcField_le w, destField_mod_two w, ?_⟩
    rw [BitVec.or_assoc, fields_shiftLeft_or, ← hw]
    exact (and_or_and_not w 0xFC00#16).symm
  · rintro ⟨hd, hr, hbit, rfl⟩
    obtain ⟨x, rfl⟩ := exists_toNat_eq (n := 6) (Nat.lt_succ_of_le hd)
    obtain ⟨y, rfl⟩ := exists_toNat_eq (n := 5) (Nat.lt_succ_of_le hr)
    have hshared := shared_bit_of_toNat hbit
    rw [BitVec.ofNat_toNat, BitVec.ofNat_toNat]
    exact ⟨addWord_and_mask, (destField_addWord hshared).symm, (srcField_addWord hshared).symm⟩

/-- Settles O11: entry 4's test and fields, and the words made from them, which exist for the pairs
that agree in the shared bit. -/
theorem addWords : Obligations.AddWords := by
  refine fun w d r => ⟨?_, addWord_iff w d r⟩
  rw [← destField_eq, ← srcField_eq]
  exact decodeWord_eq_add_iff w d r

/-! ### The words of no entry -/

theorem regMask_ne_iff {op : Word} (hop : op &&& 0xFE0F#16 = op) (w : Word) :
    w &&& 0xFE0F#16 ≠ op ↔ ∀ r : Nat, r ≤ 31 → w ≠ op ||| (BitVec.ofNat 16 r <<< 4) := by
  constructor
  · exact fun hw r hr hword => hw ((regWord_iff hop w r).mpr ⟨hr, hword⟩).1
  · intro hno hw
    obtain ⟨hr, hword⟩ := (regWord_iff hop w _).mp ⟨hw, rfl⟩
    exact hno _ hr hword

/-- Entry 4 tests the top six bits, so its words are an interval. -/
theorem addMask_iff (w : Word) :
    w &&& 0xFC00#16 = 0x0C00#16 ↔ 0x0C00 ≤ w.toNat ∧ w.toNat ≤ 0x0FFF := by
  have hmask : w &&& 0xFC00#16 = w >>> 10 <<< 10 := by
    apply BitVec.eq_of_getLsbD_eq
    intro i hi
    interval_cases i <;> simp
  rw [hmask, ← BitVec.toNat_inj, BitVec.toNat_shiftLeft, BitVec.toNat_ushiftRight,
    Nat.shiftLeft_eq, Nat.shiftRight_eq_div_pow]
  have hw := w.isLt
  simp only [BitVec.toNat_ofNat]
  omega

/-- Settles O12: entry 1 alone builds NoOp, and decoding fails where all four tests fail, each of
which excludes the words of its entry. -/
theorem noOpWordAndUnmatchedWords : Obligations.NoOpWordAndUnmatchedWords := by
  refine fun w => ⟨decodeWord_eq_noOp_iff w, ?_⟩
  rw [← regMask_ne_iff rfl, ← regMask_ne_iff rfl, ← addMask_iff]
  exact decodeWord_eq_none_iff w

/-! ### The encoder, the decoder's inverse -/

theorem encode_eq_none_iff (i : Instr) : encode i = none ↔ i.wellFormed = false := by
  cases i <;> simp [encode, Instr.wellFormed]

/-- The encoder gives exactly the word the decoder reads the Instruction from. -/
theorem encode_eq_some_iff (i : Instr) (w : Word) : encode i = some w ↔ decodeWord w = some i := by
  cases i with
  | noOp => rw [decodeWord_eq_noOp_iff, encode, Option.some_inj, eq_comm]
  | increment r =>
    rw [incrementWord_iff, encode, Option.ite_none_right_eq_some, Option.some_inj, eq_comm (a := w)]
  | decrement r =>
    rw [decrementWord_iff, encode, Option.ite_none_right_eq_some, Option.some_inj, eq_comm (a := w)]
  | add d r =>
    rw [addWord_iff, encode, Option.ite_none_right_eq_some, Option.some_inj, eq_comm (a := w),
      and_assoc, and_assoc]
  | loadImmediate d k => simp [encode, decodeWord_ne_loadImmediate]

theorem wellFormed_of_encode {i : Instr} {w : Word} (h : encode i = some w) :
    i.wellFormed = true := by
  rw [← Bool.not_eq_false, ← encode_eq_none_iff, h]
  exact Option.some_ne_none w

theorem word_of_halves (w : Word) (b2 b3 : Byte) :
    Window.word ⟨w.extractLsb' 0 8, w.extractLsb' 8 8, b2, b3⟩ = w := by
  apply BitVec.eq_of_toNat_eq
  rw [word_toNat, BitVec.extractLsb'_toNat, BitVec.extractLsb'_toNat, Nat.shiftRight_zero,
    Nat.shiftRight_eq_div_pow]
  omega

theorem wordBytes_word (b : Window) : wordBytes b.word = [b.b0, b.b1] := by
  rw [wordBytes, ← word_low_byte b, ← word_high_byte b]
  rfl

/-- Settles O15: a well-formed Instruction has a word, which its halves give back in any window, and
any window that decoded to another Instruction would show a word for it. -/
theorem decodeOfEncodeIsIdentity : Obligations.DecodeOfEncodeIsIdentity := by
  refine fun i => ⟨fun hwf => ?_, fun hwf => ?_⟩
  · have hsome : encode i ≠ none := by simp [encode_eq_none_iff, hwf]
    obtain ⟨w, hw⟩ := Option.ne_none_iff_exists'.mp hsome
    refine ⟨w, hw, fun b2 b3 => ?_⟩
    rw [decode, word_of_halves]
    exact (encode_eq_some_iff i w).mp hw
  · have hnone := (encode_eq_none_iff i).mpr hwf
    refine ⟨hnone, fun b hb => ?_⟩
    have hword := (encode_eq_some_iff i b.word).mpr hb
    simp [hnone] at hword

/-- Settles O16: the word the decoder read is the Instruction's encoding, and the window's first two
bytes are its halves. -/
theorem encodeOfDecodeIsIdentity : Obligations.EncodeOfDecodeIsIdentity := by
  intro b i hb
  have hword := (encode_eq_some_iff i b.word).mpr hb
  refine ⟨wellFormed_of_encode hword, ?_⟩
  rw [encodeBytes, hword, Option.map_some, wordBytes_word]

end Sys2Proof
end

/-! PROOFS. The statements about the step and its surroundings (spec/40_fetch_execute.md): what the
decode phase and the read accessors answer (R85, R96), what a failed operation leaves (R95), what one
step and a run of steps change (R91, R92, R98), and the controller that takes a step phase by phase
(R89). -/

namespace Sys2Proof.Machine

/-! ### The decode phase -/

theorem decodePhase_of_some {b : Window} {i : Instr} (h : decode b = some i) :
    decodePhase b = .ok i := by
  simp [decodePhase, h]

theorem decodePhase_of_none {b : Window} (h : decode b = none) :
    decodePhase b = .error (.decodeFailure b.word) := by
  simp [decodePhase, h]

/-- Settles O7: the decode phase hands the window's word to the decoder, and a step whose decode
phase fails is answered with that error. -/
theorem decodePhaseSurfacesFailure : Obligations.DecodePhaseSurfacesFailure := by
  refine ⟨fun b i => decodePhase_of_some, fun b => decodePhase_of_none, fun s b hf hnone => ?_⟩
  rw [serve_step, step_of_decode_error hf (decodePhase_of_none hnone), settle_fault]
  rfl

/-! ### The read accessors -/

/-- Settles O43: a register that has a value is in the file, and the three answers are those of the
accessors' equations. -/
theorem readAccessorsObserveOnly : Obligations.ReadAccessorsObserveOnly := by
  refine ⟨fun s i v h => ?_, fun s i => serve_readReg_of_ge, serve_readPc⟩
  obtain ⟨hi, rfl⟩ := reg_of_getElem? h
  exact serve_readReg_of_lt hi

/-! ### Failed operations -/

theorem settle_error {s : State} {r : Result} {f : Fault} (h : (settle s r).2 = .error f) :
    settle s r = (s, .error f) := by
  cases r with
  | next t => cases h
  | fault g => exact congrArg (Prod.mk s) h
  | refused q => cases h

/-- An error response comes with the state the request found (R146). -/
theorem serve_error {q : Request} {s : State} {f : Fault} (h : (serve q s).2 = .error f) :
    serve q s = (s, .error f) := by
  cases q with
  | construct n d => cases h
  | load p => exact settle_error h
  | step => exact settle_error h
  | execute i => exact settle_error h
  | readReg i => exact Prod.ext (serve_readReg_state i s) h
  | readPc => cases h

/-- Settles O41: an error leaves the state found, so the repeated request is the same request on the
same state. -/
theorem failedOperationChangesNothing : Obligations.FailedOperationChangesNothing := by
  intro q s f h
  have hserve := serve_error h
  rw [hserve]
  exact ⟨rfl, hserve⟩

/-! ### What one step changes -/

theorem updateReg_next {f : Byte → Byte} {r : Nat} {s t : State} (h : updateReg f r s = .next t) :
    t = s.setReg r (f (s.reg r)) := by
  rcases updateReg_cases f r s with ⟨-, e⟩ | ⟨-, e⟩
  · exact Host.Outcome.next.inj (h.symm.trans e)
  · simp [e] at h

theorem execAdd_next {d r : Nat} {s t : State} (h : execAdd d r s = .next t) :
    t = s.setReg d (s.reg d + s.reg r) := by
  rcases execAdd_cases d r s with ⟨-, -, e⟩ | ⟨-, e⟩ | ⟨-, -, e⟩
  · exact Host.Outcome.next.inj (h.symm.trans e)
  · simp [e] at h
  · simp [e] at h

theorem execLoadImmediate_next {d : Nat} {k : Byte} {s t : State}
    (h : execLoadImmediate d k s = .next t) : t = s.setReg (d + 16) k := by
  rcases execLoadImmediate_cases d k s with ⟨-, -, e⟩ | ⟨-, e⟩
  · exact Host.Outcome.next.inj (h.symm.trans e)
  · simp [e] at h

/-- The execute phase writes no register but the Instruction's destination. -/
theorem exec_next_destination {i : Instr} {s t : State} (h : exec i s = .next t) :
    t = s ∨ ∃ r v, destination i = some r ∧ t = s.setReg r v := by
  cases i with
  | noOp => exact .inl (Host.Outcome.next.inj h).symm
  | increment r => exact .inr ⟨r, _, rfl, updateReg_next h⟩
  | decrement r => exact .inr ⟨r, _, rfl, updateReg_next h⟩
  | add d r => exact .inr ⟨d, _, rfl, execAdd_next h⟩
  | loadImmediate d k => exact .inr ⟨d + 16, k, rfl, execLoadImmediate_next h⟩

theorem exec_next_getElem?_other {i : Instr} {s t : State} (h : exec i s = .next t) {j : Nat}
    (hj : destination i ≠ some j) : t.x[j]? = s.x[j]? := by
  rcases exec_next_destination h with rfl | ⟨r, v, hr, rfl⟩
  · rfl
  · refine setReg_getElem?_other s v ?_
    rintro rfl
    exact hj hr

/-- A step that answers a next state has fetched, so its pc was at most 32764 and did not wrap. -/
theorem step_next_pc {s t : State} (h : step s = .next t) :
    s.pc.toNat + 4 ≤ 32768 ∧ t.pc.toNat = s.pc.toNat + 2 := by
  obtain ⟨i, u, ⟨hpc, -⟩, hx, rfl⟩ := step_next h
  rw [advance_pc, exec_next_pc hx]
  exact ⟨hpc, toNat_advance_pc hpc⟩

theorem SameElsewhere.refl (s : State) : SameElsewhere s s :=
  ⟨rfl, rfl, rfl, fun _ => rfl, fun _ => rfl⟩

theorem SameElsewhere.trans {s t u : State} (hst : SameElsewhere s t) (htu : SameElsewhere t u) :
    SameElsewhere s u := by
  obtain ⟨hn, hf, hd, hpmem, hdmem⟩ := hst
  obtain ⟨hn', hf', hd', hpmem', hdmem'⟩ := htu
  exact ⟨hn'.trans hn, hf'.trans hf, hd'.trans hd, fun a => (hpmem' a).trans (hpmem a),
    fun a => (hdmem' a).trans (hdmem a)⟩

theorem step_sameElsewhere {s t : State} (h : step s = .next t) : SameElsewhere s t := by
  obtain ⟨hnregs, hflags, hdmem, hsize⟩ := step_sameFixedFields h
  exact ⟨hnregs, hflags, hsize, fun a => congrArg (Memory.read · a) (step_next_pmem h),
    fun a => congrArg (Memory.read · a) hdmem⟩

/-- R123: LoadImmediate is in no instruction stream. -/
theorem State.Fetches.ne_loadImmediate {s : State} {i : Instr} (h : s.Fetches i) (d : Nat)
    (k : Byte) : i ≠ .loadImmediate d k := by
  rintro rfl
  exact decodeWord_ne_loadImmediate _ d k h.2

/-- Settles O27: the step executed the Instruction it fetched, which wrote its destination alone, and
the advance moved the pc alone. -/
theorem stepChangesOneRegisterAndPc : Obligations.StepChangesOneRegisterAndPc := by
  intro s t h
  refine ⟨(step_next_pc h).2, step_sameElsewhere h, ?_⟩
  obtain ⟨i, u, hfetch, hx, rfl⟩ := step_next h
  exact ⟨i, hfetch, hfetch.ne_loadImmediate, fun j => exec_next_getElem?_other hx⟩

/-! ### Runs of steps -/

/-- The pc rises by 2 in each step, and the last step starts at 32764 or below. -/
theorem runSteps_next_pc {n : Nat} {s t : State} (h : runSteps n s = .next t) :
    t.pc.toNat = s.pc.toNat + 2 * n ∧ (0 < n → t.pc.toNat ≤ 32766) := by
  induction n generalizing s with
  | zero =>
    obtain rfl : s = t := by simpa using h
    exact ⟨rfl, fun hn => absurd hn (Nat.lt_irrefl 0)⟩
  | succ n ih =>
    obtain ⟨u, hstep, hrun⟩ := runSteps_succ_next h
    obtain ⟨hfits, hpc⟩ := step_next_pc hstep
    obtain ⟨hrest, hbound⟩ := ih hrun
    omega

theorem runSteps_sameElsewhere {n : Nat} {s t : State} (h : runSteps n s = .next t) :
    SameElsewhere s t := by
  induction n generalizing s with
  | zero =>
    obtain rfl : s = t := by simpa using h
    exact .refl s
  | succ n ih =>
    obtain ⟨u, hstep, hrun⟩ := runSteps_succ_next h
    exact (step_sameElsewhere hstep).trans (ih hrun)

/-- Settles O32: what one step does to the pc and leaves alone, along the run. -/
theorem runAdvancesPcByTwoEach : Obligations.RunAdvancesPcByTwoEach := by
  intro n s t h
  obtain ⟨hpc, hbound⟩ := runSteps_next_pc h
  exact ⟨hpc, runSteps_sameElsewhere h, hbound⟩

/-- A run of n steps succeeds, or meets its first error after fewer. -/
theorem runSteps_cases (n : Nat) (s : State) :
    (∃ t, runSteps n s = .next t) ∨
      ∃ k t f, k < n ∧ runSteps k s = .next t ∧ step t = .fault f := by
  induction n generalizing s with
  | zero => exact .inl ⟨s, rfl⟩
  | succ n ih =>
    cases hs : step s with
    | next u =>
      rcases ih u with ⟨t, hrun⟩ | ⟨k, t, f, hk, hrun, hfault⟩
      · exact .inl ⟨t, (runSteps_succ_of_next n hs).trans hrun⟩
      · exact .inr ⟨k + 1, t, f, Nat.succ_lt_succ hk, (runSteps_succ_of_next k hs).trans hrun,
          hfault⟩
    | fault f => exact .inr ⟨0, s, f, n.succ_pos, rfl, hs⟩
    | refused q => exact absurd hs (step_ne_refused s q)

/-- A run that has answered a next state runs on from it. -/
theorem runSteps_add_of_next {n : Nat} {s t : State} (h : runSteps n s = .next t) (m : Nat) :
    runSteps (n + m) s = runSteps m t := by
  induction n generalizing s with
  | zero =>
    obtain rfl : s = t := by simpa using h
    rw [Nat.zero_add]
  | succ n ih =>
    obtain ⟨u, hstep, hrun⟩ := runSteps_succ_next h
    rw [Nat.add_right_comm, runSteps_succ_of_next _ hstep, ih hrun]

/-- Settles O33: a run of 16384 steps would take the pc to 32768 or above, so it meets an error
before; every longer run repeats the successful part and stops at that error. -/
theorem everyRunEndsInAnError : Obligations.EveryRunEndsInAnError := by
  intro s
  rcases runSteps_cases 16384 s with ⟨t, hrun⟩ | ⟨n, t, f, hn, hrun, hfault⟩
  · obtain ⟨hpc, hbound⟩ := runSteps_next_pc hrun
    omega
  · refine ⟨n, t, f, by omega, hrun, hfault, fun m hm => ?_⟩
    obtain ⟨k, rfl⟩ := Nat.exists_eq_add_of_lt hm
    rw [Nat.add_assoc, runSteps_add_of_next hrun, runSteps_succ_of_fault k hfault]

/-! ### The controller -/

namespace Controller
variable {s : State} {b : Window} {i : Instr} {f : Fault} (r : Option Response)

theorem tick_fetch_of_ok (h : fetch s = .ok b) : tick ⟨.fetch, s, r⟩ = ⟨.decode b, s, r⟩ := by
  simp [tick, h]

theorem tick_fetch_of_error (h : fetch s = .error f) :
    tick ⟨.fetch, s, r⟩ = ⟨.idle, s, some (.error f)⟩ := by
  simp [tick, abandon, h]

theorem tick_decode_of_ok (h : decodePhase b = .ok i) :
    tick ⟨.decode b, s, r⟩ = ⟨.execute i, s, r⟩ := by
  simp [tick, h]

theorem tick_decode_of_error (h : decodePhase b = .error f) :
    tick ⟨.decode b, s, r⟩ = ⟨.idle, s, some (.error f)⟩ := by
  simp [tick, abandon, h]

theorem tick_execute_of_next {t : State} (h : exec i s = .next t) :
    tick ⟨.execute i, s, r⟩ = ⟨.advance, t, r⟩ := by
  simp [tick, h]

theorem tick_execute_of_fault (h : exec i s = .fault f) :
    tick ⟨.execute i, s, r⟩ = ⟨.idle, s, some (.error f)⟩ := by
  simp [tick, abandon, h]

theorem tick_advance : tick ⟨.advance, s, r⟩ = ⟨.idle, Machine.advance s, some .done⟩ := rfl

theorem ticks_succ (n : Nat) (c : Controller) : ticks (n + 1) c = ticks n c.tick := rfl

theorem ticks_idle (n : Nat) : ticks n ⟨.idle, s, r⟩ = ⟨.idle, s, r⟩ := by
  induction n with
  | zero => rfl
  | succ n ih => exact ih

/-- The controller at rest after an operation: the state it left and its response. -/
def answered (p : State × Response) : Controller := ⟨.idle, p.1, some p.2⟩

theorem ticks_execute (i : Instr) (s : State) :
    ticks 2 ⟨.execute i, s, r⟩ = answered (settle s (advanceAfter (exec i s))) := by
  cases hx : exec i s with
  | next t =>
    rw [ticks_succ, tick_execute_of_next r hx, ticks_succ, tick_advance]
    rfl
  | fault f =>
    rw [ticks_succ, tick_execute_of_fault r hx, ticks_idle]
    rfl
  | refused q => exact absurd hx (exec_ne_refused i s q)

/-- From FETCH, the controller takes the phases of the atomic step in turn; from an error on, it
rests in IDLE. -/
theorem ticks_fetch (s : State) : ticks 4 ⟨.fetch, s, r⟩ = answered (settle s (step s)) := by
  cases hf : fetch s with
  | error f =>
    rw [ticks_succ, tick_fetch_of_error r hf, ticks_idle, step_of_fetch_error hf]
    rfl
  | ok b =>
    rw [ticks_succ, tick_fetch_of_ok r hf, ticks_succ]
    cases hd : decodePhase b with
    | error f =>
      rw [tick_decode_of_error r hd, ticks_idle, step_of_decode_error hf hd]
      rfl
    | ok i => rw [tick_decode_of_ok r hd, ticks_execute, step_of_decode_ok hf hd]

theorem tick_decode_state (b : Window) (s : State) : (tick ⟨.decode b, s, r⟩).state = s := by
  cases hd : decodePhase b with
  | error f => rw [tick_decode_of_error r hd]
  | ok i => rw [tick_decode_of_ok r hd]

/-- FETCH and DECODE, the two transitions before EXECUTE, write nothing. -/
theorem ticks_fetch_state {n : Nat} (hn : n ≤ 2) (s : State) :
    (ticks n ⟨.fetch, s, r⟩).state = s := by
  cases n with
  | zero => rfl
  | succ n =>
    rw [ticks_succ]
    cases hf : fetch s with
    | error f => rw [tick_fetch_of_error r hf, ticks_idle]
    | ok b =>
      rw [tick_fetch_of_ok r hf]
      obtain rfl | rfl : n = 0 ∨ n = 1 := by omega
      · rfl
      · exact tick_decode_state r b s

theorem requestStep_idle (s : State) : requestStep ⟨.idle, s, r⟩ = ⟨.fetch, s, none⟩ := rfl

theorem requestStep_of_busy {c : Controller} (h : c.phase ≠ .idle) : c.requestStep = c := by
  unfold requestStep
  split
  · exact absurd ‹c.phase = .idle› h
  all_goals rfl

end Controller

/-- Settles O31: a request takes the controller from IDLE to FETCH, and four transitions from there
give what the atomic step gives. -/
theorem controllerRefinesStep : Obligations.ControllerRefinesStep := by
  refine ⟨fun s r => ?_, fun s r n hn => ?_, fun c => Controller.requestStep_of_busy⟩
  · rw [Controller.requestStep_idle, Controller.ticks_fetch]
    rfl
  · rw [Controller.requestStep_idle, Controller.ticks_fetch_state none hn]

end Sys2Proof.Machine

/-! PROOFS. The statements about the single-register family (spec/41_single_register.md): Increment
(R100) and Decrement (R101) are both an addition of a constant to one register, and what is proved of
such an instruction is read off for the constants 1 and 255; so are the laws of the pair (R102). -/

namespace Sys2Proof.Machine

/-! ### A step and a sequence of executions, from what their instructions do -/

theorem step_of_fetches {s : State} {i : Instr} (h : s.Fetches i) :
    step s = advanceAfter (exec i s) :=
  step_of_decode_ok (fetch_of_le h.1) (decodePhase_of_some h.2)

@[simp] theorem execAll_nil (s : State) : execAll [] s = .next s := rfl

theorem execAll_cons_of_next {i : Instr} {s t : State} (h : exec i s = .next t)
    (is : List Instr) : execAll (i :: is) s = execAll is t := by
  simp [execAll, h]

/-- One register write is the whole change. -/
theorem SameButRegister.setReg (s : State) (r : Nat) (v : Byte) :
    SameButRegister r s (s.setReg r v) :=
  ⟨⟨setReg_nregs s r v, rfl, rfl, fun _ => rfl, fun _ => rfl⟩, rfl,
    fun _ => setReg_getElem?_other s v⟩

/-! ### Instructions that add a constant to one register -/

/-- Executing `i` adds `k` modulo 256 to register `r`, once `r` is checked. -/
def AddsToReg (i : Instr) (r k : Nat) : Prop :=
  ∀ s, exec i s = updateReg (· + BitVec.ofNat 8 k) r s

theorem increment_addsToReg (r : Nat) : AddsToReg (.increment r) r 1 := fun _ => rfl

theorem decrement_addsToReg (r : Nat) : AddsToReg (.decrement r) r 255 := fun _ => rfl

/-- The adder's sum as a number. -/
theorem add_ofNat_eq_ofNat_mod (v : Byte) (k : Nat) :
    v + BitVec.ofNat 8 k = BitVec.ofNat 8 ((v.toNat + k) % 256) := by
  apply BitVec.eq_of_toNat_eq
  simp

namespace AddsToReg
variable {i j : Instr} {r k l : Nat} {s : State}

theorem exec_of_lt (hi : AddsToReg i r k) (h : r < s.nregs) :
    exec i s = .next (s.setReg r (s.reg r + BitVec.ofNat 8 k)) :=
  (hi s).trans (requireReg_of_lt _ h)

theorem exec_of_ge (hi : AddsToReg i r k) (h : s.nregs ≤ r) :
    exec i s = .fault (.registerOutOfRange r) :=
  (hi s).trans (requireReg_of_ge _ h)

/-- For a valid register: the wrapping sum, the frame, and the same inside a step. -/
theorem effect_of_lt (hi : AddsToReg i r k) (h : r < s.nregs) :
    ∃ v t, s.x[r]? = some v ∧ exec i s = .next t ∧
      t.x[r]? = some (BitVec.ofNat 8 ((v.toNat + k) % 256)) ∧ SameButRegister r s t ∧
      (s.Fetches i → step s = .next { t with pc := s.pc + 2#16 }) := by
  have hx := hi.exec_of_lt h
  refine ⟨s.reg r, _, getElem?_eq_reg h, hx, ?_, .setReg s r _, fun hf => ?_⟩
  · rw [setReg_getElem?_self _ h, add_ofNat_eq_ofNat_mod]
  · rw [step_of_fetches hf, hx]
    rfl

/-- For an index beyond the file: the error, which leaves the state as it was by either request. -/
theorem error_of_ge (hi : AddsToReg i r k) (h : s.nregs ≤ r) :
    exec i s = .fault (.registerOutOfRange r) ∧
      serve (.execute i) s = (s, .error (.registerOutOfRange r)) ∧
      (s.Fetches i → serve .step s = (s, .error (.registerOutOfRange r))) := by
  have hx := hi.exec_of_ge h
  refine ⟨hx, by rw [serve_execute, hx, settle_fault], fun hf => ?_⟩
  rw [serve_step, step_of_fetches hf, hx]
  rfl

/-- Two constants added to one register in turn are their sum, added once. -/
theorem execAll_pair (hi : AddsToReg i r k) (hj : AddsToReg j r l) (h : r < s.nregs) :
    execAll [i, j] s = .next (s.setReg r (s.reg r + BitVec.ofNat 8 (k + l))) := by
  have h' : r < (s.setReg r (s.reg r + BitVec.ofNat 8 k)).nregs := by rwa [setReg_nregs]
  rw [execAll_cons_of_next (hi.exec_of_lt h), execAll_cons_of_next (hj.exec_of_lt h'), execAll_nil,
    setReg_reg_self _ h, setReg_setReg, BitVec.ofNat_add, BitVec.add_assoc]

/-- `n` executions add `n` times the constant. -/
theorem execAll_replicate (hi : AddsToReg i r k) (n : Nat) (h : r < s.nregs) :
    execAll (List.replicate n i) s = .next (s.setReg r (s.reg r + BitVec.ofNat 8 (n * k))) := by
  induction n generalizing s with
  | zero => simp
  | succ n ih =>
    have h' : r < (s.setReg r (s.reg r + BitVec.ofNat 8 k)).nregs := by rwa [setReg_nregs]
    rw [List.replicate_succ, execAll_cons_of_next (hi.exec_of_lt h), ih h', setReg_reg_self _ h,
      setReg_setReg, BitVec.add_assoc, ← BitVec.ofNat_add, Nat.succ_mul, Nat.add_comm k]

end AddsToReg

/-- Registers are taken modulo 256, so adding a multiple of 256 to one leaves the state as it was. -/
theorem setReg_add_ofNat_256_mul (s : State) (r m : Nat) :
    s.setReg r (s.reg r + BitVec.ofNat 8 (256 * m)) = s := by
  have hzero : BitVec.ofNat 8 (256 * m) = 0#8 := BitVec.eq_of_toNat_eq (by simp)
  rw [hzero, BitVec.add_zero, setReg_reg]

/-! ### The statements -/

/-- Settles O18: the words are those of entry 2, and Increment adds the constant 1. -/
theorem incrementAddsOneModulo256 : Obligations.IncrementAddsOneModulo256 :=
  ⟨fun w hw => (incrementWords w _).1.mpr ⟨hw, rfl⟩,
    fun r hr => (incrementWord_iff _ r).mpr ⟨hr, rfl⟩,
    fun w r h => ((incrementWord_iff w r).mp h).1,
    fun _ r => (increment_addsToReg r).effect_of_lt,
    fun _ r => (increment_addsToReg r).error_of_ge⟩

/-- Settles O19: the words are those of entry 3, and Decrement adds the constant 255. -/
theorem decrementSubtractsOneModulo256 : Obligations.DecrementSubtractsOneModulo256 :=
  ⟨fun w hw => (decrementWords w _).1.mpr ⟨hw, rfl⟩,
    fun r hr => (decrementWord_iff _ r).mpr ⟨hr, rfl⟩,
    fun _ r => (decrement_addsToReg r).effect_of_lt,
    fun _ r => (decrement_addsToReg r).error_of_ge⟩

/-- Settles O24: each of the four sequences adds a multiple of 256 to the register: 256 * 1, 256 * 255,
1 + 255 and 255 + 1. -/
theorem incrementAndDecrementLaws : Obligations.IncrementAndDecrementLaws := by
  intro s r h
  have hinc := increment_addsToReg r
  have hdec := decrement_addsToReg r
  refine ⟨?_, ?_, ?_, ?_⟩
  · rw [hinc.execAll_replicate 256 h, setReg_add_ofNat_256_mul]
  · rw [hdec.execAll_replicate 256 h, setReg_add_ofNat_256_mul]
  · exact (hinc.execAll_pair hdec h).trans (congrArg _ (setReg_add_ofNat_256_mul s r 1))
  · exact (hdec.execAll_pair hinc h).trans (congrArg _ (setReg_add_ofNat_256_mul s r 1))

end Sys2Proof.Machine

/-! PROOFS. The statements about the two-register family (spec/42_two_register.md): Add's sum (R110),
the order of its two checks (R111), and the regression scenario of two Adds in turn (R112). -/

namespace Sys2Proof.Machine

/-! ### An instruction that is fetched, and a failed one -/

/-- A step whose instruction succeeds gives what the execute phase gave, with the pc moved by 2. -/
theorem step_of_exec_next {i : Instr} {s t : State} (hx : exec i s = .next t) (hf : s.Fetches i) :
    step s = .next { t with pc := s.pc + 2#16 } := by
  rw [step_of_fetches hf, hx, ← exec_next_pc hx]
  rfl

/-- A failed instruction is answered with its error and the state as it was, by either request. -/
theorem serve_of_exec_fault {i : Instr} {s : State} {f : Fault} (hx : exec i s = .fault f) :
    serve (.execute i) s = (s, .error f) ∧ (s.Fetches i → serve .step s = (s, .error f)) := by
  refine ⟨by rw [serve_execute, hx, settle_fault], fun hf => ?_⟩
  rw [serve_step, step_of_fetches hf, hx]
  rfl

/-! ### Add, by the outcome of its two checks -/

section add
variable {s : State} {d r : Nat}

theorem exec_add_of_lt (hd : d < s.nregs) (hr : r < s.nregs) :
    exec (.add d r) s = .next (s.setReg d (s.reg d + s.reg r)) :=
  (requireReg_of_lt _ hd).trans (requireReg_of_lt _ hr)

theorem exec_add_of_dest_ge (hd : s.nregs ≤ d) :
    exec (.add d r) s = .fault (.registerOutOfRange d) :=
  requireReg_of_ge _ hd

theorem exec_add_of_src_ge (hd : d < s.nregs) (hr : s.nregs ≤ r) :
    exec (.add d r) s = .fault (.registerOutOfRange r) :=
  (requireReg_of_lt _ hd).trans (requireReg_of_ge _ hr)

/-- Whichever index is out of range, the error is of the one kind. -/
theorem exec_add_of_ge (h : s.nregs ≤ d ∨ s.nregs ≤ r) :
    ∃ f, exec (.add d r) s = .fault f ∧ f.kind = .registerOutOfRange := by
  rcases Nat.lt_or_ge d s.nregs with hd | hd
  · exact ⟨_, exec_add_of_src_ge hd (h.resolve_left (Nat.not_le.mpr hd)), rfl⟩
  · exact ⟨_, exec_add_of_dest_ge hd, rfl⟩

theorem exists_exec_add_fault_iff :
    (∃ f, exec (.add d r) s = .fault f) ↔ s.nregs ≤ d ∨ s.nregs ≤ r := by
  constructor
  · rintro ⟨f, hf⟩
    by_contra hno
    obtain ⟨hd, hr⟩ := not_or.mp hno
    simp [exec_add_of_lt (Nat.not_le.mp hd) (Nat.not_le.mp hr)] at hf
  · intro h
    obtain ⟨f, hf, -⟩ := exec_add_of_ge h
    exact ⟨f, hf⟩

/-- For distinct registers, the second of two crossed Adds reads the first one's sum. -/
theorem execAll_add_pair (hne : d ≠ r) (hd : d < s.nregs) (hr : r < s.nregs) :
    execAll [.add d r, .add r d] s =
      .next ((s.setReg d (s.reg d + s.reg r)).setReg r (s.reg r + (s.reg d + s.reg r))) := by
  rw [execAll_cons_of_next (exec_add_of_lt hd hr),
    execAll_cons_of_next (exec_add_of_lt (by rwa [setReg_nregs]) (by rwa [setReg_nregs])),
    execAll_nil, setReg_reg_self _ hd, setReg_reg_other s _ hne.symm]

end add

/-! ### The adder (R113), and bit 9 of the word -/

/-- The sum of two registers as a number. -/
theorem add_eq_ofNat_mod (a b : Byte) : a + b = BitVec.ofNat 8 ((a.toNat + b.toNat) % 256) := by
  rw [← add_ofNat_eq_ofNat_mod, BitVec.ofNat_toNat, BitVec.setWidth_eq]

/-- Bit 9 is the top bit of the destination field. -/
theorem getLsbD_nine_iff (w : Word) : w.getLsbD 9 = true ↔ 32 ≤ destField w := by
  rw [destField_eq, BitVec.extractLsb'_toNat, Nat.shiftRight_eq_div_pow, BitVec.getLsbD,
    Nat.testBit_eq_decide_div_mod_eq, decide_eq_true_iff]
  omega

/-! ### The statements -/

/-- Settles O20: the words are those of entry 4, and Add writes the one sum where both checks pass. -/
theorem addSumsModulo256 : Obligations.AddSumsModulo256 := by
  refine ⟨fun w hw => (addWords w _ _).1.mpr ⟨hw, rfl, rfl⟩,
    fun d r hd hr hbit => (addWord_iff _ d r).mpr ⟨hd, hr, hbit, rfl⟩,
    fun w d r h => ?_, fun s d r hd hr => ?_, fun s d r h => ?_⟩
  · obtain ⟨hd, hr, hbit, -⟩ := (addWord_iff w d r).mp h
    exact ⟨hd, hr, hbit⟩
  · have hx := exec_add_of_lt hd hr
    have hsum : (s.setReg d (s.reg d + s.reg r)).x[d]? =
        some (BitVec.ofNat 8 (((s.reg d).toNat + (s.reg r).toNat) % 256)) := by
      rw [setReg_getElem?_self _ hd, add_eq_ofNat_mod]
    refine ⟨s.reg d, s.reg r, _, getElem?_eq_reg hd, getElem?_eq_reg hr, hx, hsum, .setReg s d _,
      ?_, step_of_exec_next hx⟩
    rintro rfl
    rw [hsum, Nat.two_mul]
  · obtain ⟨f, hx, hkind⟩ := exec_add_of_ge h
    exact ⟨f, hx, hkind, serve_of_exec_fault hx⟩

/-- Settles O21: the destination's check stands before the source's; a decoded source is at most 31,
so that with 32 registers only the destination can be out of range. -/
theorem addChecksDestinationFirst : Obligations.AddChecksDestinationFirst := by
  refine ⟨fun s d r => exec_add_of_dest_ge, fun s d r => exec_add_of_src_ge,
    fun s w d r hn hw => ?_⟩
  obtain ⟨-, rfl, rfl⟩ := (decodeWord_eq_add_iff w d r).mp hw
  have hsrc : ¬ 32 ≤ srcField w := Nat.not_le.mpr (Nat.lt_succ_of_le (srcField_le w))
  rw [exists_exec_add_fault_iff, hn, getLsbD_nine_iff, or_iff_left hsrc]

/-- Settles O25: the first sum stays in `d`, and the second is `b + (a + b)`; `Add(1, 0)` has no word,
the pair differing in the shared bit. -/
theorem addRegressionScenario : Obligations.AddRegressionScenario := by
  refine ⟨fun s d r a b hne ha hb => ?_, rfl, rfl, rfl, rfl,
    (decodeOfEncodeIsIdentity (.add 1 0)).2 rfl⟩
  obtain ⟨hd, rfl⟩ := reg_of_getElem? ha
  obtain ⟨hr, rfl⟩ := reg_of_getElem? hb
  refine ⟨_, execAll_add_pair hne hd hr, ?_, ?_⟩
  · rw [setReg_getElem?_other _ _ hne, setReg_getElem?_self _ hd, add_eq_ofNat_mod]
  · rw [setReg_getElem?_self _ (by rwa [setReg_nregs])]
    congr 1
    apply BitVec.eq_of_toNat_eq
    simp only [BitVec.toNat_add, BitVec.toNat_ofNat]
    omega

end Sys2Proof.Machine

/-! PROOFS. The statement about LoadImmediate (spec/43_load_immediate.md): the write to the upper
window (R120) and the validity condition of its offset (R121). -/

namespace Sys2Proof.Machine

/-! ### LoadImmediate, by the outcome of its window check -/

section loadImmediate
variable {s : State} {d : Nat} (k : Byte)

theorem exec_loadImmediate_of_inRange (hd : d ≤ 15) (ht : d + 16 < s.nregs) :
    exec (.loadImmediate d k) s = .next (s.setReg (d + 16) k) := by
  rcases execLoadImmediate_cases d k s with ⟨-, -, e⟩ | ⟨hout, -⟩
  · exact e
  · omega

theorem exec_loadImmediate_of_outOfRange (h : 15 < d ∨ s.nregs ≤ d + 16) :
    exec (.loadImmediate d k) s = .fault (.registerOutOfRange (d + 16)) := by
  rcases execLoadImmediate_cases d k s with ⟨hd, ht, -⟩ | ⟨-, e⟩
  · omega
  · exact e

end loadImmediate

/-- Settles O22: where the window check passes, the one register write is the whole change; where it
fails, the response is its error and the state is the one found. -/
theorem loadImmediateWritesTheWindow : Obligations.LoadImmediateWritesTheWindow := by
  refine ⟨fun s d k hd ht => ?_, fun s d k h => ?_⟩
  · exact ⟨_, exec_loadImmediate_of_inRange k hd ht, setReg_getElem?_self k ht,
      .setReg s (d + 16) k⟩
  · have hx := exec_loadImmediate_of_outOfRange k h
    exact ⟨hx, (serve_of_exec_fault hx).1⟩

end Sys2Proof.Machine

/-! PROOFS. The statements about errors (spec/60_exceptions.md): which operation raises which kind, and
when (R140, R143, R148), the response's code, and the sticky mark that records them (R147). -/

namespace Sys2Proof.Machine

/-! ### When an execution and a register read fail (R143) -/

theorem exec_of_outOfRange {i : Instr} {s : State} (h : OutOfRange i s) :
    ∃ f, exec i s = .fault f ∧ f.kind = .registerOutOfRange := by
  cases i with
  | noOp => exact h.elim
  | increment r => exact ⟨_, (increment_addsToReg r).exec_of_ge h, rfl⟩
  | decrement r => exact ⟨_, (decrement_addsToReg r).exec_of_ge h, rfl⟩
  | add d r => exact exec_add_of_ge h
  | loadImmediate d k => exact ⟨_, exec_loadImmediate_of_outOfRange k h, rfl⟩

theorem exec_of_not_outOfRange {i : Instr} {s : State} (h : ¬OutOfRange i s) :
    ∃ t, exec i s = .next t := by
  cases i with
  | noOp => exact ⟨s, rfl⟩
  | increment r => exact ⟨_, (increment_addsToReg r).exec_of_lt (Nat.not_le.mp h)⟩
  | decrement r => exact ⟨_, (decrement_addsToReg r).exec_of_lt (Nat.not_le.mp h)⟩
  | add d r =>
    obtain ⟨hd, hr⟩ := not_or.mp h
    exact ⟨_, exec_add_of_lt (Nat.not_le.mp hd) (Nat.not_le.mp hr)⟩
  | loadImmediate d k =>
    obtain ⟨hd, ht⟩ := not_or.mp h
    exact ⟨_, exec_loadImmediate_of_inRange k (Nat.not_lt.mp hd) (Nat.not_le.mp ht)⟩

theorem readReg_of_lt {s : State} {i : Nat} (h : i < s.nregs) : s.readReg i = .ok (s.reg i) :=
  if_pos h

theorem readReg_of_ge {s : State} {i : Nat} (h : s.nregs ≤ i) :
    s.readReg i = .error (.registerOutOfRange i) :=
  if_neg (Nat.not_lt.mpr h)

theorem exists_readReg_error_iff (s : State) (i : Nat) :
    (∃ f, s.readReg i = .error f) ↔ s.nregs ≤ i := by
  rcases Nat.lt_or_ge i s.nregs with h | h
  · simp [readReg_of_lt h, h]
  · simp [readReg_of_ge h, h]

/-- Settles O26: each Instruction's checks fail exactly in its case of R143. -/
theorem registerOutOfRangeExactly : Obligations.RegisterOutOfRangeExactly :=
  ⟨fun _ _ => exec_of_outOfRange, fun _ _ => exec_of_not_outOfRange, exists_readReg_error_iff⟩

/-! ### The kind of each operation's errors (R140) -/

theorem load_fault_kind {p : List Byte} {s : State} {f : Fault} (h : load p s = .fault f) :
    f.kind = .programTooLarge := by
  rcases Nat.lt_or_ge 32768 p.length with hl | hl
  · obtain rfl := Host.Outcome.fault.inj ((load_of_gt s hl).symm.trans h)
    rfl
  · simp [load_of_le s hl] at h

theorem exec_fault_kind {i : Instr} {s : State} {f : Fault} (h : exec i s = .fault f) :
    f.kind = .registerOutOfRange := by
  rcases exec_cases i s with e | ⟨r, v, -, e⟩ | ⟨n, e⟩
  · simp [e] at h
  · simp [e] at h
  · obtain rfl := Host.Outcome.fault.inj (e.symm.trans h)
    rfl

theorem advanceAfter_fault {r : Result} {f : Fault} (h : advanceAfter r = .fault f) :
    r = .fault f := by
  cases r with
  | next t => cases h
  | fault g => exact h
  | refused q => cases h

/-- Each phase of a step has its own kind; the advance cannot fail. -/
theorem step_fault_kind {s : State} {f : Fault} (h : step s = .fault f) :
    f.kind = .fetchOutOfBounds ∨ f.kind = .decodeFailure ∨ f.kind = .registerOutOfRange := by
  rcases step_cases s with ⟨-, e⟩ | ⟨-, -, e⟩ | ⟨i, -, e⟩
  · obtain rfl := Host.Outcome.fault.inj (e.symm.trans h)
    exact .inl rfl
  · obtain rfl := Host.Outcome.fault.inj (e.symm.trans h)
    exact .inr (.inl rfl)
  · exact .inr (.inr (exec_fault_kind (advanceAfter_fault (e.symm.trans h))))

theorem serve_readReg_error_kind {i : Nat} {s : State} {f : Fault}
    (h : (serve (.readReg i) s).2 = .error f) : f.kind = .registerOutOfRange := by
  rcases Nat.lt_or_ge i s.nregs with hi | hi
  · simp [serve_readReg_of_lt hi] at h
  · rw [serve_readReg_of_ge hi] at h
    obtain rfl := Response.error.inj h
    rfl

/-! ### Responses, errors and refusals -/

theorem fault_of_settle_error {s : State} {r : Result} {f : Fault}
    (h : (settle s r).2 = .error f) : r = .fault f := by
  cases r with
  | next t => cases h
  | fault g => exact congrArg Host.Outcome.fault (Response.error.inj h)
  | refused q => cases h

theorem refused_of_settle_refused {s : State} {r : Result} {q : Refusal}
    (h : (settle s r).2 = .refused q) : r = .refused q := by
  cases r with
  | next t => cases h
  | fault f => cases h
  | refused q' => exact congrArg Host.Outcome.refused (Response.refused.inj h)

theorem load_ne_refused (p : List Byte) (s : State) (q : Refusal) : load p s ≠ .refused q := by
  rcases Nat.lt_or_ge 32768 p.length with h | h
  · simp [load_of_gt s h]
  · simp [load_of_le s h]

theorem serve_ne_refused (q : Request) (s : State) (r : Refusal) : (serve q s).2 ≠ .refused r := by
  intro h
  cases q with
  | construct n d => cases h
  | load p => exact load_ne_refused p s r (refused_of_settle_refused h)
  | step => exact step_ne_refused s r (refused_of_settle_refused h)
  | execute i => exact exec_ne_refused i s r (refused_of_settle_refused h)
  | readReg i =>
    rcases Nat.lt_or_ge i s.nregs with hi | hi
    · simp [serve_readReg_of_lt hi] at h
    · simp [serve_readReg_of_ge hi] at h
  | readPc => cases h

theorem ErrorKind.code_ne_zero (k : ErrorKind) : k.code ≠ 0 := by
  cases k <;> decide

/-- Code 0 is success: the error kinds are numbered from 1, and a refusal has no code. -/
theorem Response.code_eq_zero_iff {a : Response} (ha : ∀ q, a ≠ .refused q) :
    a.code = some 0 ↔ ∀ f, a ≠ .error f := by
  cases a with
  | error f => simp [Response.code, f.kind.code_ne_zero]
  | refused q => exact absurd rfl (ha q)
  | done => simp [Response.code]
  | byte v => simp [Response.code]
  | pc v => simp [Response.code]

/-- Settles O42: each operation's errors are of its own kinds, and no operation refuses, so that a
response without an error has code 0. -/
theorem errorsOfEachOperation : Obligations.ErrorsOfEachOperation := by
  refine ⟨fun q s f h => ?_, serve_ne_refused,
    fun q s => Response.code_eq_zero_iff (serve_ne_refused q s)⟩
  cases q with
  | construct n d => cases h
  | load p => exact load_fault_kind (fault_of_settle_error h)
  | step => exact step_fault_kind (fault_of_settle_error h)
  | execute i => exact exec_fault_kind (fault_of_settle_error h)
  | readReg i => exact serve_readReg_error_kind h
  | readPc => cases h

/-! ### ProgramTooLarge (R148) -/

/-- An error of kind ProgramTooLarge comes from `load` and from no other operation. -/
theorem serve_error_kind_programTooLarge_iff {q : Request} {s : State} {f : Fault}
    (h : (serve q s).2 = .error f) : f.kind = .programTooLarge ↔ ∃ p, q = .load p := by
  have hkind := errorsOfEachOperation.1 q s f h
  constructor
  · intro hf
    rw [hf] at hkind
    cases q with
    | load p => exact ⟨p, rfl⟩
    | _ => simp at hkind
  · rintro ⟨p, rfl⟩
    exact hkind

/-- Settles O40: the length check alone decides whether a load fails, and no other operation gives
its kind of error. -/
theorem programTooLargeExactly : Obligations.ProgramTooLargeExactly := by
  refine ⟨fun p s hp => ?_, fun p s hp => ?_, fun _ _ _ => serve_error_kind_programTooLarge_iff⟩
  · rw [serve_load, load_of_gt s hp, settle_fault]
  · rw [serve_load, load_of_le s hp, settle_next]

/-! ### The sticky mark (R147) -/

theorem serveAll_cons (q : Request) (qs : List Request) (s : State) :
    serveAll (q :: qs) s =
      ((serveAll qs (serve q s).1).1, (serve q s).2 :: (serveAll qs (serve q s).1).2) := rfl

theorem Session.serveAll_cons (q : Request) (qs : List Request) (s : State) (mark : Bool) :
    Session.serveAll (q :: qs) ⟨s, mark⟩ =
      Session.serveAll qs ⟨(serve q s).1, mark || (serve q s).2.isError⟩ := rfl

/-- From any mark, a session serves as the machine alone does and adds this run's errors to the
mark. -/
theorem Session.serveAll_eq (qs : List Request) (s : State) (mark : Bool) :
    Session.serveAll qs ⟨s, mark⟩ =
      ⟨(Machine.serveAll qs s).1, mark || (Machine.serveAll qs s).2.any Response.isError⟩ := by
  induction qs generalizing s mark with
  | nil => exact congrArg (Session.mk s) (Bool.or_false mark).symm
  | cons q qs ih =>
    rw [Session.serveAll_cons, ih, Machine.serveAll_cons, List.any_cons, Bool.or_assoc]

/-- Settles O44: the session's law from the mark unset. -/
theorem stickyMarkRecordsAnyError : Obligations.StickyMarkRecordsAnyError := fun qs s => by
  rw [Session.serveAll_eq, Bool.false_or]

end Sys2Proof.Machine

/-! PROOFS. The statement about the entry point (spec/70_reset_and_hazards.md): the pc is 0 after
construction and still 0 after a load, so the first fetch reads offsets 0 to 3 (R171). -/

namespace Sys2Proof.Machine

theorem load_next_pc {p : List Byte} {s t : State} (h : load p s = .next t) : t.pc = s.pc := by
  obtain ⟨-, rfl⟩ := load_next h
  rfl

/-- At pc 0 the window fits in program memory, whatever stands there. -/
theorem fetch_of_pc_eq_zero {s : State} (h : s.pc = 0#16) :
    fetch s = .ok (s.pmem.readWindow 0) := by
  have hpc : s.pc.toNat = 0 := by rw [h, BitVec.toNat_zero]
  rw [fetch_of_le (by omega), hpc]

/-- Settles O2: construction puts the pc at 0 and a load leaves it there, so either machine fetches
the window at offset 0. -/
theorem entryPointIsOffsetZero : Obligations.EntryPointIsOffsetZero := by
  refine ⟨construct_pc _ _, fun n d p t h => ⟨?constructed, ?loaded⟩⟩
  case constructed => exact fetch_of_pc_eq_zero (construct_pc n d)
  case loaded => exact fetch_of_pc_eq_zero ((load_next_pc h).trans (construct_pc n d))

end Sys2Proof.Machine

/-! PROOFS. The statements about construction, the invariant and the pc's one writer
(spec/10_state.md), and about `load` (spec/40_fetch_execute.md section 1): the reset values (R25),
the invariant of every operation (R15), the advance as the only write of the pc (R88, R155), and
what a load replaces (R81, R82). -/

namespace Sys2Proof.Machine

/-! ### The machine after construction -/

theorem construct_getElem?_of_lt {n i : Nat} (d : Nat) (h : i < n) :
    (State.construct n d).x[i]? = some 0#8 :=
  List.getElem?_replicate_of_lt h

/-- Settles O1: the fields construction gives; a memory that lists nothing reads as 0. -/
theorem resetValues : Obligations.ResetValues :=
  ⟨fun n d => ⟨construct_pc n d, construct_nregs n d, fun _ => construct_getElem?_of_lt d,
    construct_flags n d, read_nil, read_nil, construct_dmemSize n d⟩, rfl⟩

theorem construct_inv (n d : Nat) : (State.construct n d).Inv := by
  obtain ⟨hpmem, hdmem⟩ := construct_memories_wf n d
  exact ⟨hpmem, hdmem, Nat.zero_mod 2, Nat.zero_le 32766⟩

/-- Settles O28: `State.reset` is one of the constructed machines, each of which starts at pc 0 with
canonical memories. -/
theorem resetMeetsInvariant : Obligations.ResetMeetsInvariant :=
  ⟨construct_inv Config.nregs Config.dmemSize, construct_inv⟩

/-! ### The state an operation leaves -/

/-- A failed operation leaves the state it found (R146), so what holds of that state and of every
next state holds of the state left. -/
theorem settle_state {P : State → Prop} {s : State} {r : Result} (hs : P s)
    (h : ∀ t, r = .next t → P t) : P (settle s r).1 := by
  cases r with
  | next t => exact h t rfl
  | fault f => exact hs
  | refused q => exact hs

/-- A load replaces program memory by a canonical one, and the rest of the invariant is about fields
it leaves. -/
theorem load_keeps_inv {p : List Byte} {s t : State} (hs : s.Inv) (h : load p s = .next t) :
    t.Inv := by
  obtain ⟨hlen, rfl⟩ := load_next h
  obtain ⟨-, hdmem, hpc⟩ := hs
  have hfits : 0 + p.length ≤ Config.pmemSize := by rwa [Nat.zero_add]
  exact ⟨wf_writeBytes (wf_nil _) p 0 hfits, hdmem, hpc⟩

/-- Settles O30: construction establishes the invariant, the next states of load, step and execute
keep it, and a read or a failure leaves the state found. -/
theorem everyOperationKeepsInvariant : Obligations.EveryOperationKeepsInvariant := by
  intro q s hs
  cases q with
  | construct n d => exact construct_inv n d
  | load p => exact settle_state hs fun _ => load_keeps_inv hs
  | step => exact settle_state hs fun t => stepKeepsInvariant s t hs
  | execute i => exact settle_state hs fun _ => exec_keeps_inv hs
  | readReg i => rwa [serve_readReg_state]
  | readPc => exact hs

/-! ### The writer of the pc -/

theorem serve_pc {q : Request} (hq : q.onMachine) (hstep : q ≠ .step) (s : State) :
    (serve q s).1.pc = s.pc := by
  cases q with
  | construct n d => exact absurd rfl (hq n d)
  | load p => exact settle_state (P := (·.pc = s.pc)) rfl fun _ => load_next_pc
  | step => exact absurd rfl hstep
  | execute i => exact settle_state (P := (·.pc = s.pc)) rfl fun _ => exec_next_pc
  | readReg i => rw [serve_readReg_state]
  | readPc => rfl

/-- The pc of a successful step's next state is the advanced one, which has not wrapped. -/
theorem step_next_pc_eq {s t : State} (h : step s = .next t) :
    t.pc = s.pc + 2#16 ∧ (s.pc + 2#16).toNat = s.pc.toNat + 2 := by
  obtain ⟨i, u, ⟨hfits, -⟩, hx, rfl⟩ := step_next h
  rw [advance_pc, exec_next_pc hx]
  exact ⟨rfl, toNat_advance_pc hfits⟩

/-- Settles O37: no other operation writes the pc, and a step is answered with success exactly where
it answers a next state. -/
theorem pcIsWrittenByStepAlone : Obligations.PcIsWrittenByStepAlone := by
  refine ⟨fun q s hq hstep => serve_pc hq hstep s, fun s => ?_⟩
  rw [serve_step]
  cases hs : step s with
  | next t => exact ⟨fun _ => step_next_pc_eq hs, fun hfailed => absurd rfl hfailed⟩
  | fault f => exact ⟨nofun, fun _ => rfl⟩
  | refused q => exact absurd hs (step_ne_refused s q)

/-! ### What a load replaces -/

/-- Settles O39: the program copied over a cleared memory is that canonical memory; a program too
long is answered before anything is written. -/
theorem loadReplacesProgramMemoryAlone : Obligations.LoadReplacesProgramMemoryAlone := by
  refine ⟨fun p s hp => ?_, fun p s hp => ?_⟩
  · have hload := load_of_le s hp
    have hfits : 0 + p.length ≤ 32768 := by rwa [Nat.zero_add]
    exact ⟨_, hload, wf_writeBytes (wf_nil _) p 0 hfits,
      fun _ _ => load_next_read_inside hload, fun _ => load_next_read_beyond hload⟩
  · have hload := load_of_gt s hp
    exact ⟨hload, by rw [serve_load, hload, settle_fault]⟩

end Sys2Proof.Machine

/-! PROOFS. The statements about single words and windows: the sample words
(spec/95_test_vectors.md), LoadImmediate's lack of a word (R62), the phases of a step (R83 to R88),
the bytes of the window that matter to none of them (R52), and NoOp, alone and run through zero
memory (R130, R91). -/

namespace Sys2Proof

/-- Settles O8: each sample is a word of its entry, or of none. -/
theorem sampleWordsDecode : Obligations.SampleWordsDecode := ⟨rfl, rfl, rfl, rfl, rfl, rfl⟩

/-- The instruction word is the window's first two bytes. -/
theorem word_congr {b b' : Window} (h0 : b.b0 = b'.b0) (h1 : b.b1 = b'.b1) : b.word = b'.word := by
  rw [Window.word, h0, h1, Window.word]

/-- The decoder reads the word alone (R52). -/
theorem decode_congr {b b' : Window} (h : b.word = b'.word) : decode b = decode b' :=
  congrArg decodeWord h

theorem decode_of_bytes_eq_zero {b : Window} (h0 : b.b0 = 0#8) (h1 : b.b1 = 0#8) :
    decode b = some .noOp := by
  rw [decode, decodeWord_eq_noOp_iff, Window.word, h0, h1]
  rfl

end Sys2Proof

namespace Sys2Proof.Machine

/-- Settles O13: no entry builds a LoadImmediate, so no window holds one, and the encoder, its
inverse, has no word for it. -/
theorem loadImmediateIsNeverFetched : Obligations.LoadImmediateIsNeverFetched := fun d k =>
  ⟨fun b => decodeWord_ne_loadImmediate b.word d k, rfl, fun _ h => h.ne_loadImmediate d k rfl⟩

/-! ### The phases of a step -/

theorem advanceAfter_eq_mapNext (r : Result) : advanceAfter r = mapNext advance r := by
  cases r with
  | next t => rfl
  | fault f => rfl
  | refused q => rfl

theorem mapNext_mapNext (g h : State → State) (r : Result) :
    mapNext g (mapNext h r) = mapNext (g ∘ h) r := by
  cases r with
  | next t => rfl
  | fault f => rfl
  | refused q => rfl

/-- Settles O4: fetch, decode, and execute with the advance, each as the phase that decides. -/
theorem stepRunsTheDecodedInstruction : Obligations.StepRunsTheDecodedInstruction := by
  refine fun s => ⟨fun hpc => ?_, fun hpc hnone => ?_, fun i hf => ?_⟩
  · exact step_of_fetch_error (fetch_of_gt hpc)
  · exact step_of_decode_error (fetch_of_le hpc) (decodePhase_of_none hnone)
  · exact (step_of_fetches hf).trans (advanceAfter_eq_mapNext _)

/-! ### Bytes 2 and 3 of the window -/

/-- The machine with another program memory. -/
def State.withPmem (m : Memory) (s : State) : State := { s with pmem := m }

theorem inertInExec_withPmem (m : Memory) : InertInExec (State.withPmem m) where
  x _ := rfl
  setReg _ _ _ := rfl

/-- Only fetch reads program memory: the phases after it do not notice another one. -/
theorem advanceAfter_exec_withPmem (m : Memory) (i : Instr) (s : State) :
    advanceAfter (exec i (s.withPmem m)) = mapNext (State.withPmem m) (advanceAfter (exec i s)) := by
  rw [(inertInExec_withPmem m).exec, advanceAfter_eq_mapNext, advanceAfter_eq_mapNext,
    mapNext_mapNext, mapNext_mapNext]
  rfl

theorem decodePhase_congr {b b' : Window} (h : b.word = b'.word) :
    decodePhase b = decodePhase b' := by
  rw [decodePhase, decode_congr h, h, decodePhase]

/-- Settles O17: the fetch bound is about the pc, the decode phase sees the word in bytes 0 and 1,
and the later phases read no program memory. -/
theorem upperWindowBytesAreInert : Obligations.UpperWindowBytesAreInert := by
  intro s m hm
  rcases Nat.lt_or_ge 32768 (s.pc.toNat + 4) with hpc | hpc
  · rw [step_of_fetch_error (fetch_of_gt hpc)]
    exact step_of_fetch_error (fetch_of_gt (s := s.withPmem m) hpc)
  · have hword : (m.readWindow s.pc.toNat).word = (s.pmem.readWindow s.pc.toNat).word :=
      word_congr (hm _ (by omega) (by omega)) (hm _ (by omega) (by omega))
    have hphase := decodePhase_congr hword
    have hfetch : fetch (s.withPmem m) = .ok (m.readWindow s.pc.toNat) := fetch_of_le hpc
    cases hd : decodePhase (s.pmem.readWindow s.pc.toNat) with
    | error f =>
      rw [step_of_decode_error (fetch_of_le hpc) hd]
      exact step_of_decode_error hfetch (hphase.trans hd)
    | ok i =>
      rw [step_of_decode_ok (fetch_of_le hpc) hd]
      exact (step_of_decode_ok hfetch (hphase.trans hd)).trans (advanceAfter_exec_withPmem m i s)

/-! ### NoOp, and a run through zero memory -/

theorem exec_noOp (s : State) : exec .noOp s = .next s := rfl

/-- Two zero bytes at the pc are the word of NoOp, whatever follows them. -/
theorem step_of_zero_word {s : State} (hpc : s.pc.toNat ≤ 32764)
    (h0 : s.pmem.read s.pc.toNat = 0#8) (h1 : s.pmem.read (s.pc.toNat + 1) = 0#8) :
    step s = .next (advance s) :=
  step_of_exec_next (exec_noOp s) ⟨Nat.add_le_add_right hpc 4, decode_of_bytes_eq_zero h0 h1⟩

/-- Settles O23: NoOp's execute phase is the identity, so a step of it is the advance alone. -/
theorem noOpOnlyAdvances : Obligations.NoOpOnlyAdvances :=
  ⟨fun s => ⟨exec_noOp s, by rw [serve_execute, exec_noOp, settle_next]⟩,
    fun _ => step_of_zero_word⟩

theorem runSteps_of_zero_memory {s : State} {k : Nat} (hk : s.pc.toNat + 2 * k = 32766)
    (hzero : ∀ a, s.pc.toNat ≤ a → a < 32766 → s.pmem.read a = 0#8) :
    runSteps k s = .next { s with pc := 32766#16 } := by
  induction k generalizing s with
  | zero =>
    have hpc : s.pc = 32766#16 := BitVec.eq_of_toNat_eq hk
    rw [runSteps_zero, ← hpc]
  | succ k ih =>
    have hstep := step_of_zero_word (s := s) (by omega) (hzero _ (by omega) (by omega))
      (hzero _ (by omega) (by omega))
    have hpc : (advance s).pc.toNat = s.pc.toNat + 2 := toNat_advance_pc (by omega)
    rw [runSteps_succ_of_next k hstep]
    exact ih (by omega) fun a ha => hzero a (by omega)

/-- Settles O34: each step of the run is a NoOp; at 32766 the window no longer fits. -/
theorem zeroMemoryRunsToTheFetchBound : Obligations.ZeroMemoryRunsToTheFetchBound := by
  intro s k hk hzero
  have hrun := runSteps_of_zero_memory hk hzero
  have hfetch : fetch { s with pc := 32766#16 } = .error (.fetchOutOfBounds 32766#16) :=
    fetch_of_gt (show 32768 < (32766#16).toNat + 4 by decide)
  refine ⟨hrun, ?_⟩
  rw [runSteps_add_of_next hrun, runSteps_succ_of_fault 0 (step_of_fetch_error hfetch)]

end Sys2Proof.Machine
